-- ==== Sys2Proof/Word.lean ====
section
/-! DEFINITION. The word types of the machine: a byte and a four-channel colour (00_scope R9, R14, R18). -/

namespace Sys2Proof

/-- One byte of a buffer, and one channel value 0..255 (00_scope R14). -/
abbrev Byte := BitVec 8

/-- Four 8-bit channels "red, green, blue and alpha, in that order" (00_scope R18, RGBA8): a pixel, or
one endpoint of the RAW or EP file (10_state R20). -/
structure Rgba where
  r : Byte
  g : Byte
  b : Byte
  a : Byte
deriving DecidableEq, Repr

/-- INVALID_PIXEL of 00_scope R9, transparent black. -/
def Rgba.zero : Rgba := ⟨0, 0, 0, 0⟩

end Sys2Proof
end

