-- ==== Sys2Proof/Config.lean ====
section
/-! DEFINITION. What is fixed for the machine (00_scope R9), the open parameter LANES (00_scope R10), and the
FREE VALUES: constants without a body, for what the spec leaves open. Nothing can evaluate one of them.
(The format tables are named constants too: Sys2Proof/Machine/Tables.lean.) -/

namespace Sys2Proof.Config

/-- BLOCK_BYTES (00_scope R9). -/
def blockBytes : Nat := 16

/-- BLOCK_DIM (00_scope R9). -/
def blockDim : Nat := 4

/-- PIXEL_BYTES (00_scope R9). -/
def pixelBytes : Nat := 4

/-- WIDTH and HEIGHT are unsigned 32-bit numbers (00_scope R9; 92 D27): the bound they stay below. -/
def dimensionBound : Nat := 2 ^ 32

/-- What a byte of host memory reads as before anything has been written to it.
DESIGN CHOICE, unsafe (log 4). -/
def unwrittenByte : Byte := 0

/-- LANES - 1, for the open parameter LANES >= 1 (00_scope R10; 93 U14; log 8). -/
opaque lanesMinusOne : Nat

/-- LANES: how many block steps the GSU may perform at once (44_gather R176). -/
def lanes : Nat := lanesMinusOne + 1

/-- Free value: the content of scratch cell `cell` before block decode number `draw` writes it
(40_mode R93, 93 U11; log 3). -/
opaque freeScratch (draw cell : Nat) : Byte

/-- Free value: the bit cursor after a decode that does not use it (10_state R22; log 3). -/
opaque freeCursor (draw : Nat) : Nat

/-- Free value: what a host read of the byte at `addr` answers when it lies in OUT[0 .. NEED_OUT) of a
running transaction (20_memory R47; log 9). -/
opaque freeReadByte (draw addr : Nat) : Byte

/-- Free value: whether OUT byte `off` of an abandoned transaction holds its new value (true) or its old one
(70_reset R210; log 10). -/
opaque freeNewByte (draw off : Nat) : Bool

/-- Free value: whether the host moves before a busy GSU at the next step (44_gather R176; log 7). -/
opaque freeHostFirst (draw : Nat) : Bool

/-- Free value: which pending blocks the GSU takes at the next step (44_gather R176; log 7). -/
opaque freePick (draw : Nat) : Nat

/-- Free value: how many lanes beyond the first the GSU uses at the next step (44_gather R176; log 8). -/
opaque freeExtraLanes (draw : Nat) : Nat

end Sys2Proof.Config
end

