-- ==== Sys2Proof/Syntax.lean ====
section
/-! DEFINITION. The syntax: the eight modes, a block's fields as the block literal of 30_encoding R78 writes
them, the operand record of DECODE_TEXTURE (10_state R26), and Instr, one constructor per row of
spec/opcode_table.json. -/

namespace Sys2Proof

/-- A block's mode, "integer 0–7" (00_scope R18). -/
inductive Mode where
  | m0 | m1 | m2 | m3 | m4 | m5 | m6 | m7
deriving DecidableEq, Repr

/-- The fields of a block that has a mode, in the shape of the block literal `BC7.M<m>` of 30_encoding R78.
Every value is an unsigned natural (00_scope R14); Sys2Proof/WellFormed.lean says which values a mode has
room for. A field the mode lacks is 0 or the empty list. -/
structure BlockFields where
  /-- partition id (`part=`) -/
  part : Nat := 0
  /-- rotation (`rot=`) -/
  rot : Nat := 0
  /-- index selector (`isel=`) -/
  isel : Nat := 0
  /-- raw red endpoints, in the order s0E0, s0E1, s1E0, … (`R=[…]`) -/
  red : List Nat := []
  /-- raw green endpoints, same order (`G=[…]`) -/
  green : List Nat := []
  /-- raw blue endpoints, same order (`B=[…]`) -/
  blue : List Nat := []
  /-- raw alpha endpoints, same order (`A=[…]`) -/
  alpha : List Nat := []
  /-- unique p-bits, same order (`P=[…]`) -/
  uniqueP : List Nat := []
  /-- shared p-bits, subset 0 first (`SP=[…]`) -/
  sharedP : List Nat := []
  /-- primary indices of pixels 0..15 (`I=[…]`) -/
  idx : List Nat := []
  /-- secondary indices of pixels 0..15 (`J=[…]`) -/
  idx2 : List Nat := []
deriving DecidableEq, Repr

/-- A block: one of the eight modes with its fields, or mode-less (30_encoding R60, R74). -/
inductive Block where
  | mode (m : Mode) (f : BlockFields)
  | modeless
deriving DecidableEq, Repr

/-- The operand record of a DECODE_TEXTURE (10_state R26). `IN` and `OUT` are references to byte arrays: the
address of the array's first byte in host memory (log 5). Lengths, width and height are exact naturals
(92 D7). -/
structure TextureCmd where
  inBase : Nat
  inLen : Nat
  width : Nat
  height : Nat
  outBase : Nat
  outLen : Nat
deriving DecidableEq, Repr

/-- The instructions: one constructor per row of spec/opcode_table.json. The nine block formats are what the
BDU runs (40_mode R94 to R101 and R106); the two host transactions have no binary encoding (30_encoding R77). -/
inductive Instr where
  /-- DECODE.M0 (40_mode R94) -/
  | decodeM0 (f : BlockFields)
  /-- DECODE.M1 (40_mode R95) -/
  | decodeM1 (f : BlockFields)
  /-- DECODE.M2 (40_mode R96) -/
  | decodeM2 (f : BlockFields)
  /-- DECODE.M3 (40_mode R97) -/
  | decodeM3 (f : BlockFields)
  /-- DECODE.M4 (40_mode R98) -/
  | decodeM4 (f : BlockFields)
  /-- DECODE.M5 (40_mode R99) -/
  | decodeM5 (f : BlockFields)
  /-- DECODE.M6 (40_mode R100) -/
  | decodeM6 (f : BlockFields)
  /-- DECODE.M7 (40_mode R101) -/
  | decodeM7 (f : BlockFields)
  /-- DECODE.INV (40_mode R106): no operand, bits 8..127 are not read -/
  | decodeInv
  /-- DECODE_BLOCK (44_gather R170): the operand, byte 0 first -/
  | decodeBlock (block : List Byte)
  /-- DECODE_TEXTURE (44_gather R171, R172) -/
  | decodeTexture (cmd : TextureCmd)
deriving DecidableEq, Repr

end Sys2Proof
end

