-- ==== Sys2Proof/Machine/Tables.lean ====
section
/-! DEFINITION. The format tables, the BDU's read-only store (20_memory R43, 70_reset R214), each a named
constant (92 D24): the mode table (30_encoding R61), the weight tables (41_endpoint R113), the partition and
anchor tables (42_partition R132, R133). The spec supplies their values from general knowledge and says that
none was checked against a source: UNVERIFIED, unsafe (log 1). -/

namespace Sys2Proof

/-- The number of a mode, 0..7. -/
def Mode.number : Mode → Nat
  | .m0 => 0 | .m1 => 1 | .m2 => 2 | .m3 => 3 | .m4 => 4 | .m5 => 5 | .m6 => 6 | .m7 => 7

/-- One row of the mode table (30_encoding R61), its columns under the spec's names. -/
structure ModeParams where
  /-- NS: the number of subsets -/
  ns : Nat
  /-- PB: the width of the partition-id field -/
  pb : Nat
  /-- RB: the width of the rotation field -/
  rb : Nat
  /-- ISB: the width of the index-selector field -/
  isb : Nat
  /-- CB: the raw colour endpoint width per channel -/
  cb : Nat
  /-- AB: the raw alpha endpoint width, 0 for a mode without alpha endpoints -/
  ab : Nat
  /-- EPB: 1 if each endpoint has its own p-bit -/
  epb : Nat
  /-- SPB: 1 if each subset has one p-bit shared by its two endpoints -/
  spb : Nat
  /-- IB: the primary index width -/
  ib : Nat
  /-- IB2: the secondary index width, 0 where there is no secondary stream -/
  ib2 : Nat
deriving DecidableEq, Repr

namespace Tables

/-- The mode table of 30_encoding R61: NS, PB, RB, ISB, CB, AB, EPB, SPB, IB, IB2. -/
def modeParams : Mode → ModeParams
  | .m0 => ⟨3, 4, 0, 0, 4, 0, 1, 0, 3, 0⟩
  | .m1 => ⟨2, 6, 0, 0, 6, 0, 0, 1, 3, 0⟩
  | .m2 => ⟨3, 6, 0, 0, 5, 0, 0, 0, 2, 0⟩
  | .m3 => ⟨2, 6, 0, 0, 7, 0, 1, 0, 2, 0⟩
  | .m4 => ⟨1, 0, 2, 1, 5, 6, 0, 0, 2, 3⟩
  | .m5 => ⟨1, 0, 2, 0, 7, 8, 0, 0, 2, 2⟩
  | .m6 => ⟨1, 0, 0, 0, 7, 7, 1, 0, 4, 0⟩
  | .m7 => ⟨2, 6, 0, 0, 5, 5, 1, 0, 2, 0⟩

/-- WEIGHT_2 (41_endpoint R113). -/
def weight2 : List Nat := [0, 21, 43, 64]

/-- WEIGHT_3 (41_endpoint R113). -/
def weight3 : List Nat := [0, 9, 18, 27, 37, 46, 55, 64]

/-- WEIGHT_4 (41_endpoint R113). -/
def weight4 : List Nat := [0, 4, 9, 13, 17, 21, 26, 30, 34, 38, 43, 47, 51, 55, 60, 64]

/-- PARTITION2 (42_partition R132): row `id` is the spec's digit string read as a hexadecimal number, so
pixel 0's subset is the leading digit of sixteen. -/
def partition2 : List Nat :=
  [0x0011001100110011, 0x0001000100010001, 0x0111011101110111, 0x0001001100110111] ++
  [0x0000000100010011, 0x0011011101111111, 0x0001001101111111, 0x0000000100110111] ++
  [0x0000000000010011, 0x0011011111111111, 0x0000000101111111, 0x0000000000010111] ++
  [0x0001011111111111, 0x0000000011111111, 0x0000111111111111, 0x0000000000001111] ++
  [0x0000100011101111, 0x0111000100000000, 0x0000000010001110, 0x0111001100010000] ++
  [0x0011000100000000, 0x0000100011001110, 0x0000000010001100, 0x0111001100110001] ++
  [0x0011000100010000, 0x0000100010001100, 0x0110011001100110, 0x0011011001101100] ++
  [0x0001011111101000, 0x0000111111110000, 0x0111000110001110, 0x0011100110011100] ++
  [0x0101010101010101, 0x0000111100001111, 0x0101101001011010, 0x0011001111001100] ++
  [0x0011110000111100, 0x0101010110101010, 0x0110100101101001, 0x0101101010100101] ++
  [0x0111001111001110, 0x0001001111001000, 0x0011001001001100, 0x0011101111011100] ++
  [0x0110100110010110, 0x0011110011000011, 0x0110011010011001, 0x0000011001100000] ++
  [0x0100111001000000, 0x0010011100100000, 0x0000001001110010, 0x0000010011100100] ++
  [0x0110110010010011, 0x0011011011001001, 0x0110001110011100, 0x0011100111000110] ++
  [0x0110110011001001, 0x0110001100111001, 0x0111111010000001, 0x0001100011100111] ++
  [0x0000111100110011, 0x0011001111110000, 0x0010001011101110, 0x0100010001110111]

/-- PARTITION3 (42_partition R132), rows written as for `partition2`. -/
def partition3 : List Nat :=
  [0x0011001102212222, 0x0001001122112221, 0x0000200122112211, 0x0222002200110111] ++
  [0x0000000011221122, 0x0011001100220022, 0x0022002211111111, 0x0011001122112211] ++
  [0x0000000011112222, 0x0000111111112222, 0x0000111122222222, 0x0012001200120012] ++
  [0x0112011201120112, 0x0122012201220122, 0x0011011211221222, 0x0011200122002220] ++
  [0x0001001101121122, 0x0111001120012200, 0x0000112211221122, 0x0022002200221111] ++
  [0x0111011102220222, 0x0001000122212221, 0x0000001101220122, 0x0000110022102210] ++
  [0x0122012200110000, 0x0012001211222222, 0x0110122112210110, 0x0000011012211221] ++
  [0x0022110211020022, 0x0110011020022222, 0x0011012201220011, 0x0000200022112221] ++
  [0x0000000211221222, 0x0222002200120011, 0x0011001200220222, 0x0120012001200120] ++
  [0x0000111122220000, 0x0120120120120120, 0x0120201212010120, 0x0011220011220011] ++
  [0x0011112222000011, 0x0101010122222222, 0x0000000021212121, 0x0022112200221122] ++
  [0x0022001100220011, 0x0220122102201221, 0x0101222222220101, 0x0000212121212121] ++
  [0x0101010101012222, 0x0222011102220111, 0x0002111200021112, 0x0000211221122112] ++
  [0x0222011101110222, 0x0002111211120002, 0x0110011001102222, 0x0000000021122112] ++
  [0x0110011022222222, 0x0022001100110022, 0x0022112211220022, 0x0000000000002112] ++
  [0x0002000100020001, 0x0222122202221222, 0x0101222222222222, 0x0111201122012220]

/-- ANCHOR2 (42_partition R133): the anchor pixel of subset 1 in a 2-subset partition. -/
def anchor2 : List Nat :=
  [15, 15, 15, 15, 15, 15, 15, 15, 15, 15, 15, 15, 15, 15, 15, 15] ++
  [15, 2, 8, 2, 2, 8, 8, 15, 2, 8, 2, 2, 8, 8, 2, 2] ++
  [15, 15, 6, 8, 2, 8, 15, 15, 2, 8, 2, 2, 2, 15, 15, 6] ++
  [6, 2, 6, 8, 15, 15, 2, 2, 15, 15, 15, 15, 15, 2, 2, 15]

/-- ANCHOR3_1 (42_partition R133): the anchor pixel of subset 1 in a 3-subset partition. -/
def anchor3First : List Nat :=
  [3, 3, 15, 15, 8, 3, 15, 15, 8, 8, 6, 6, 6, 5, 3, 3] ++
  [3, 3, 8, 15, 3, 3, 6, 10, 5, 8, 8, 6, 8, 5, 15, 15] ++
  [8, 15, 3, 5, 6, 10, 8, 15, 15, 3, 15, 5, 15, 15, 15, 15] ++
  [3, 15, 5, 5, 5, 8, 5, 10, 5, 10, 8, 13, 15, 12, 3, 3]

/-- ANCHOR3_2 (42_partition R133): the anchor pixel of subset 2 in a 3-subset partition. -/
def anchor3Second : List Nat :=
  [15, 8, 8, 3, 15, 15, 3, 8, 15, 15, 15, 15, 15, 15, 15, 8] ++
  [15, 8, 15, 3, 15, 8, 15, 8, 3, 15, 6, 10, 15, 15, 10, 8] ++
  [15, 3, 15, 10, 10, 8, 9, 10, 6, 15, 8, 15, 3, 6, 6, 8] ++
  [15, 3, 15, 15, 15, 15, 15, 15, 15, 15, 15, 15, 3, 15, 15, 8]

end Tables

end Sys2Proof
end

