-- ==== Sys2Proof/Machine/Partition.lean ====
section
/-! DEFINITION. The partition lookup engine (PLE): the subset of each pixel (42_partition R131), the anchor set
(R134) and the index widths (R135). All are functions of the tables and of (NS, PART) alone (R130). -/

namespace Sys2Proof

/-- Digit `p` of a partition row: the row is sixteen hexadecimal digits, pixel 0's first (42_partition R132). -/
def rowDigit (row p : Nat) : Nat := row / 16 ^ (15 - p) % 16

/-- SUB[p] of a mode with `ns` subsets (42_partition R131). -/
def subsetOf (ns part p : Nat) : Nat :=
  if ns = 2 then rowDigit (Tables.partition2.getD part 0) p
  else if ns = 3 then rowDigit (Tables.partition3.getD part 0) p
  else 0

/-- ANCH, the anchor pixels of the primary index stream, subset 0's first (42_partition R134). -/
def anchors (ns part : Nat) : List Nat :=
  if ns = 2 then [0, Tables.anchor2.getD part 0]
  else if ns = 3 then [0, Tables.anchor3First.getD part 0, Tables.anchor3Second.getD part 0]
  else [0]

/-- The width of the primary index of pixel `p` (42_partition R135, 30_encoding R71). -/
def idxWidth (m : Mode) (part p : Nat) : Nat :=
  let q := Tables.modeParams m
  if p ∈ anchors q.ns part then q.ib - 1 else q.ib

/-- The width of the secondary index of pixel `p` in modes 4 and 5 (42_partition R135). -/
def idx2Width (m : Mode) (p : Nat) : Nat :=
  let q := Tables.modeParams m
  if p = 0 then q.ib2 - 1 else q.ib2

end Sys2Proof
end

