-- ==== Sys2Proof/Machine/Layout.lean ====
section
/-! DEFINITION. The field order common to all modes (30_encoding R62), as the widths of each group of fields.
The decoder, the encoder and the well-formedness check all read it. -/

namespace Sys2Proof

/-- Raw endpoint widths of one colour channel: CB bits, two endpoints a subset (30_encoding R62 steps 4 to 6). -/
def colourWidths (m : Mode) : List Nat :=
  List.replicate (2 * (Tables.modeParams m).ns) (Tables.modeParams m).cb

/-- Raw alpha endpoint widths, none for a mode without alpha endpoints (30_encoding R62 step 7). -/
def alphaWidths (m : Mode) : List Nat :=
  if (Tables.modeParams m).ab = 0 then []
  else List.replicate (2 * (Tables.modeParams m).ns) (Tables.modeParams m).ab

/-- Widths of the unique p-bits (30_encoding R62 step 8). -/
def uniquePWidths (m : Mode) : List Nat :=
  List.replicate (2 * (Tables.modeParams m).ns * (Tables.modeParams m).epb) 1

/-- Widths of the shared p-bits (30_encoding R62 step 9). -/
def sharedPWidths (m : Mode) : List Nat :=
  List.replicate ((Tables.modeParams m).ns * (Tables.modeParams m).spb) 1

/-- Widths of the primary indices of pixels 0..15 (30_encoding R62 step 10, R71). -/
def idxWidths (m : Mode) (part : Nat) : List Nat :=
  (List.range 16).map (idxWidth m part)

/-- Widths of the secondary indices, none for a mode without a secondary stream (30_encoding R62 step 11). -/
def idx2Widths (m : Mode) : List Nat :=
  if (Tables.modeParams m).ib2 = 0 then [] else (List.range 16).map (idx2Width m)

/-- Every width after the mode selector, in stream order (30_encoding R62). -/
def fieldWidths (m : Mode) (part : Nat) : List Nat :=
  [(Tables.modeParams m).pb, (Tables.modeParams m).rb, (Tables.modeParams m).isb]
    ++ colourWidths m ++ colourWidths m ++ colourWidths m ++ alphaWidths m
    ++ uniquePWidths m ++ sharedPWidths m ++ idxWidths m part ++ idx2Widths m

end Sys2Proof
end

