-- ==== Sys2Proof/WellFormed.lean ====
section
/-! DEFINITION. Which instructions the encodings have room for: each field of a block has as many values as its
format has (30_encoding R61 to R70) and each value fits its width, an anchor index one bit less (42_partition
R135); a DECODE_BLOCK operand is 16 bytes (44_gather R170); WIDTH and HEIGHT are u32 (10_state R26, 92 D27). -/

namespace Sys2Proof

/-- `vs` has one value for each width of `ws`, and each value fits. -/
def fitsAll : List Nat → List Nat → Bool
  | [], [] => true
  | w :: ws, v :: vs => decide (v < 2 ^ w) && fitsAll ws vs
  | _, _ => false

namespace BlockFields

/-- The partition id fits its field; 0 where the mode has none (30_encoding R72). -/
def partFits (m : Mode) (f : BlockFields) : Bool := decide (f.part < 2 ^ (Tables.modeParams m).pb)

/-- The rotation fits its field (30_encoding R72). -/
def rotFits (m : Mode) (f : BlockFields) : Bool := decide (f.rot < 2 ^ (Tables.modeParams m).rb)

/-- The index selector fits its field (30_encoding R72). -/
def iselFits (m : Mode) (f : BlockFields) : Bool := decide (f.isel < 2 ^ (Tables.modeParams m).isb)

/-- The colour endpoints: two a subset in each channel, CB bits each (30_encoding R62). -/
def colourFits (m : Mode) (f : BlockFields) : Bool :=
  fitsAll (colourWidths m) f.red && fitsAll (colourWidths m) f.green && fitsAll (colourWidths m) f.blue

/-- The alpha endpoints, none in modes 0 to 3 (30_encoding R61). -/
def alphaFits (m : Mode) (f : BlockFields) : Bool := fitsAll (alphaWidths m) f.alpha

/-- The unique p-bits (30_encoding R62 step 8). -/
def uniquePFits (m : Mode) (f : BlockFields) : Bool := fitsAll (uniquePWidths m) f.uniqueP

/-- The shared p-bits (30_encoding R62 step 9). -/
def sharedPFits (m : Mode) (f : BlockFields) : Bool := fitsAll (sharedPWidths m) f.sharedP

/-- The primary indices; an anchor's top bit is 0 (42_partition R135). -/
def idxFits (m : Mode) (f : BlockFields) : Bool := fitsAll (idxWidths m f.part) f.idx

/-- The secondary indices; pixel 0's top bit is 0 (42_partition R135). -/
def idx2Fits (m : Mode) (f : BlockFields) : Bool := fitsAll (idx2Widths m) f.idx2

/-- The fields are those of a block of mode `m`. -/
def wf (m : Mode) (f : BlockFields) : Bool :=
  f.partFits m && f.rotFits m && f.iselFits m && f.colourFits m && f.alphaFits m
    && f.uniquePFits m && f.sharedPFits m && f.idxFits m && f.idx2Fits m

end BlockFields

/-- A block is well formed when its fields are those of its mode. -/
def Block.wf : Block → Bool
  | .mode m f => f.wf m
  | .modeless => true

/-- WIDTH and HEIGHT lie in 0 .. 2^32 - 1 (44_gather R181, 92 D27). -/
def TextureCmd.dimsFit (c : TextureCmd) : Bool :=
  decide (c.width < Config.dimensionBound) && decide (c.height < Config.dimensionBound)

/-- Well-formed instructions. -/
def Instr.wf : Instr → Bool
  | .decodeM0 f => f.wf .m0
  | .decodeM1 f => f.wf .m1
  | .decodeM2 f => f.wf .m2
  | .decodeM3 f => f.wf .m3
  | .decodeM4 f => f.wf .m4
  | .decodeM5 f => f.wf .m5
  | .decodeM6 f => f.wf .m6
  | .decodeM7 f => f.wf .m7
  | .decodeInv => true
  | .decodeBlock bytes => bytes.length == Config.blockBytes
  | .decodeTexture c => c.dimsFit

end Sys2Proof
end

