-- ==== Sys2Proof/Decode.lean ====
section
/-! DEFINITION. Bit numbering and slicing (00_scope R12, R13), the mode bit-field extractor (MFX) as the decoder
(40_mode R90 to R92), and after it the encoder, which spells a block's bytes through 30_encoding R62 to R71.
Decoding is total on blocks (40_mode R104); a byte list of another length than 16 is rejected by name. -/

namespace Sys2Proof

/-- The little-endian integer of a list of bytes, byte 0 first (00_scope R12). -/
def leNat : List Byte → Nat
  | [] => 0
  | b :: bs => b.toNat + 256 * leNat bs

/-- The `n` bytes of a number, least significant first: the inverse of `leNat`. -/
def leBytes : Nat → Nat → List Byte
  | 0, _ => []
  | n + 1, v => BitVec.ofNat 8 v :: leBytes n (v / 256)

/-- `GetBits(lo, w) = blk[lo+w-1:lo]`, 0 for `w = 0` (00_scope R13). -/
def getBits (blk lo w : Nat) : Nat := blk / 2 ^ lo % 2 ^ w

/-- Bit `n` of a block is set. -/
def bitSet (blk n : Nat) : Bool := getBits blk n 1 == 1

/-- Mode detection: the lowest set bit of bits 0..7, none if all are clear (40_mode R90, 30_encoding R73). -/
def modeDetect (blk : Nat) : Option Mode :=
  if bitSet blk 0 then some .m0
  else if bitSet blk 1 then some .m1
  else if bitSet blk 2 then some .m2
  else if bitSet blk 3 then some .m3
  else if bitSet blk 4 then some .m4
  else if bitSet blk 5 then some .m5
  else if bitSet blk 6 then some .m6
  else if bitSet blk 7 then some .m7
  else none

/-- Reads of fields of the given widths, one after another from the cursor: the values and the cursor after
them (40_mode R92, `read`). -/
def readMany (blk : Nat) : List Nat → Nat → List Nat × Nat
  | [], cur => ([], cur)
  | w :: ws, cur =>
    let rest := readMany blk ws (cur + w)
    (getBits blk cur w :: rest.1, rest.2)

/-- Field extraction of a block of mode `m` and the cursor after it (40_mode R91, R92). -/
def extract (m : Mode) (blk : Nat) : BlockFields × Nat :=
  let q := Tables.modeParams m
  let cur := m.number + 1
  let part := getBits blk cur q.pb
  let cur := cur + q.pb
  let rot := getBits blk cur q.rb
  let cur := cur + q.rb
  let isel := getBits blk cur q.isb
  let cur := cur + q.isb
  let red := readMany blk (colourWidths m) cur
  let green := readMany blk (colourWidths m) red.2
  let blue := readMany blk (colourWidths m) green.2
  let alpha := readMany blk (alphaWidths m) blue.2
  let uniqueP := readMany blk (uniquePWidths m) alpha.2
  let sharedP := readMany blk (sharedPWidths m) uniqueP.2
  let idx := readMany blk (idxWidths m part) sharedP.2
  let idx2 := readMany blk (idx2Widths m) idx.2
  ({ part := part, rot := rot, isel := isel, red := red.1, green := green.1, blue := blue.1,
     alpha := alpha.1, uniqueP := uniqueP.1, sharedP := sharedP.1, idx := idx.1, idx2 := idx2.1 }, idx2.2)

/-- The block that a 128-bit number is: total (40_mode R104, 30_encoding R75). -/
def decodeBlk (blk : Nat) : Block :=
  match modeDetect blk with
  | some m => .mode m (extract m blk).1
  | none => .modeless

/-- Why a list of bytes is not a block. -/
inductive DecodeReject where
  /-- a block is "exactly 16 bytes" (44_gather R170) -/
  | notSixteenBytes
deriving DecidableEq, Repr

/-- The block in a list of bytes, byte 0 first. -/
def decodeBytes (bytes : List Byte) : Except DecodeReject Block :=
  if bytes.length = Config.blockBytes then .ok (decodeBlk (leNat bytes)) else .error .notSixteenBytes

/-- The instruction the BDU runs for a block. -/
def Block.instr : Block → Instr
  | .mode .m0 f => .decodeM0 f
  | .mode .m1 f => .decodeM1 f
  | .mode .m2 f => .decodeM2 f
  | .mode .m3 f => .decodeM3 f
  | .mode .m4 f => .decodeM4 f
  | .mode .m5 f => .decodeM5 f
  | .mode .m6 f => .decodeM6 f
  | .mode .m7 f => .decodeM7 f
  | .modeless => .decodeInv

/-- The instruction in a list of bytes, byte 0 first. -/
def decode (bytes : List Byte) : Except DecodeReject Instr :=
  match decodeBytes bytes with
  | .ok b => .ok b.instr
  | .error e => .error e

/-- The instruction the decoder reads from a row of spec/opcode_table.json: the block's low `nbits` bits are
`w`, the rest are 0; the bytes lie in memory lowest first (20_memory R45). A block is 128 bits. -/
def decodeTableWord (nbits w : Nat) : Option Instr :=
  if nbits ≤ 8 * Config.blockBytes then
    match decode (leBytes Config.blockBytes (w % 2 ^ nbits)) with
    | .ok i => some i
    | .error _ => none
  else none

/-! The encoder. -/

/-- Fields packed one after another, the first in the low bits (30_encoding R62). -/
def pack : List Nat → List Nat → Nat
  | w :: ws, v :: vs => v + 2 ^ w * pack ws vs
  | _, _ => 0

/-- The values of a block's fields after the mode selector, in stream order (30_encoding R62). -/
def BlockFields.values (f : BlockFields) : List Nat :=
  [f.part, f.rot, f.isel] ++ f.red ++ f.green ++ f.blue ++ f.alpha ++ f.uniqueP ++ f.sharedP ++ f.idx ++ f.idx2

/-- The 128-bit number of a block: the unary mode selector, then the fields (30_encoding R62, R76). A mode-less
block is written with its ignored bits 0 (R74). -/
def encodeBlk : Block → Nat
  | .mode m f => pack ((m.number + 1) :: fieldWidths m f.part) (2 ^ m.number :: f.values)
  | .modeless => 0

/-- The block an instruction is, if it is one of the nine formats; a host transaction has no binary encoding
(30_encoding R77). -/
def Instr.block? : Instr → Option Block
  | .decodeM0 f => some (.mode .m0 f)
  | .decodeM1 f => some (.mode .m1 f)
  | .decodeM2 f => some (.mode .m2 f)
  | .decodeM3 f => some (.mode .m3 f)
  | .decodeM4 f => some (.mode .m4 f)
  | .decodeM5 f => some (.mode .m5 f)
  | .decodeM6 f => some (.mode .m6 f)
  | .decodeM7 f => some (.mode .m7 f)
  | .decodeInv => some .modeless
  | .decodeBlock _ => none
  | .decodeTexture _ => none

/-- The 16 bytes of an instruction, byte 0 first. -/
def encode (i : Instr) : Option (List Byte) :=
  i.block?.map fun b => leBytes Config.blockBytes (encodeBlk b)

end Sys2Proof
end

