-- ==== Sys2Proof/Machine/State.lean ====
section
/-! DEFINITION. The state of the machine as plain data: the BDU scratch registers and the GSU registers of
10_state R20, host memory (20_memory R40), and the model's own fields for the host's script, its replies and
the schedule (INVENTORY.md '## State'). Faults, refusals, and the state after reset (10_state R31, 70_reset
R210). -/

namespace Sys2Proof.Machine

/-- Host memory, which holds the byte arrays IN and OUT: (address, byte) pairs, canonical (`Memory.wf`). -/
abbrev Memory := List Host.Cell

/-- MODE (10_state R20): "0..7 or INVALID". -/
inductive ModeReg where
  | valid (m : Mode)
  | invalid
deriving DecidableEq, Repr

/-- The BDU scratch registers (10_state R20, R28). -/
structure Scratch where
  /-- MODE -/
  mode : ModeReg
  /-- `cur`, the MFX bit cursor, 0..128 (10_state R22) -/
  cur : BitVec 8
  /-- PART -/
  part : BitVec 6
  /-- ROT -/
  rot : BitVec 2
  /-- ISEL -/
  isel : BitVec 1
  /-- RAW[s][e], four channels each -/
  raw : Vector (Vector Rgba 2) 3
  /-- PB[s][e] -/
  pb : Vector (Vector (BitVec 1) 2) 3
  /-- SUB[p] -/
  sub : Vector (BitVec 2) 16
  /-- IDX[p] -/
  idx : Vector (BitVec 4) 16
  /-- IDX2[p] -/
  idx2 : Vector (BitVec 3) 16
  /-- EP[s][e], four channels each -/
  ep : Vector (Vector Rgba 2) 3
  /-- PIX[p], row-major block order -/
  pix : Vector Rgba 16
deriving DecidableEq, Repr

/-- GSU.state (10_state R27). -/
inductive GsuState where
  | idle
  | busy
deriving DecidableEq, Repr

/-- GSU.status (10_state R25). -/
inductive Status where
  | none
  | ok
  | inputTooShort
  | outputTooShort
deriving DecidableEq, Repr

/-- The GSU registers (10_state R20). -/
structure Gsu where
  state : GsuState
  /-- GSU.cmd: "the record exists only during a transaction" (10_state R26) -/
  cmd : Option TextureCmd
  /-- GSU.pending: a set of block coordinates (bx, by), held row-major and without repeats (log 22) -/
  pending : List (Nat × Nat)
  status : Status
  /-- the model's own: host memory as it was at issue (70_reset R210, log 10) -/
  before : Memory
deriving DecidableEq, Repr

/-- An action of the host's script (30_encoding R77, R78; log 6). -/
inductive HostAction where
  /-- DECODE_BLOCK with its operand (44_gather R170) -/
  | decodeBlock (block : List Byte)
  /-- DECODE_TEXTURE with its operands (44_gather R171) -/
  | decodeTexture (cmd : TextureCmd)
  /-- WAIT "until GSU.state = IDLE" (30_encoding R78) -/
  | wait
  /-- READ buf [lo .. hi): the bytes of a buffer that starts at `base` (30_encoding R78, 20_memory R47) -/
  | read (base lo hi : Nat)
  /-- the host writes bytes of its memory from `addr` on (70_reset R215) -/
  | write (addr : Nat) (bytes : List Byte)
  /-- the host reads GSU.state and GSU.status (60_exceptions R195) -/
  | poll
  /-- reset of the hardware (70_reset R210) -/
  | reset
deriving DecidableEq, Repr

/-- What a host action gives back to the host (log 11). -/
inductive Reply where
  /-- the 16 pixels of a DECODE_BLOCK (44_gather R170) -/
  | pixels (px : Vector Rgba 16)
  /-- the bytes of a READ -/
  | bytes (bs : List Byte)
  /-- GSU.state and GSU.status -/
  | status (state : GsuState) (status : Status)
deriving DecidableEq, Repr

/-- The schedule of the next step (44_gather R176; log 7, log 8). -/
structure Turn where
  /-- a host that can act moves before a busy GSU -/
  hostFirst : Bool
  /-- which pending blocks the GSU takes, as the digits of a number (log 7) -/
  pick : Nat
  /-- how many lanes beyond the first the GSU would use -/
  extraLanes : Nat
deriving DecidableEq, Repr

/-- The state of the machine. -/
structure State where
  /-- the BDU scratch registers -/
  scratch : Scratch
  /-- the GSU registers -/
  gsu : Gsu
  /-- host memory -/
  mem : Memory
  /-- the host's script, next action first (the model's own, log 6) -/
  queue : List HostAction
  /-- what the host has got back, newest first (the model's own, log 11) -/
  replies : List Reply
  /-- the schedule of the next step (the model's own, log 7) -/
  turn : Turn
  /-- how many times free values have been drawn (the model's own, log 7) -/
  draws : Nat
deriving DecidableEq, Repr

/-- The model's faults. The hardware has none (60_exceptions R190); these stop the model where the spec's rules
exclude the state or the access, and no state that meets `Inv` raises one. -/
inductive Fault where
  /-- raised by a GSU step that finds BUSY and no command, which 10_state R26 and R27 exclude; safe (log 18) -/
  | busyWithoutCommand
  /-- raised by MemRead outside IN_LEN, where it is not defined (00_scope R16, 20_memory R44); safe (log 18) -/
  | inputOutOfBounds
  /-- raised by MemWrite outside OUT_LEN, where it is not defined (00_scope R16, 20_memory R44); safe (log 18) -/
  | outputOutOfBounds
deriving DecidableEq, Repr

/-- The refusals: host actions the model gives no meaning to (44_gather R181, 60_exceptions R194). A run ends at
its first refusal, which keeps the mark for the rest of the run (log 12). -/
inductive Refusal where
  /-- raised by exec's arm of an instruction that has no meaning yet; safe -/
  | notModelled (mnemonic : String)
  /-- raised by DECODE_TEXTURE issued while GSU.state = BUSY (92 D15); safe -/
  | textureWhileBusy
  /-- raised by DECODE_TEXTURE with WIDTH or HEIGHT outside u32 (92 D27); safe -/
  | dimensionNotU32
  /-- raised by DECODE_TEXTURE whose used ranges of IN and OUT overlap (20_memory R54, 92 D9); safe -/
  | buffersOverlap
  /-- raised by DECODE_BLOCK with an operand that is not 16 bytes (44_gather R170); safe -/
  | blockNotSixteenBytes
  /-- raised by a host write to a used range while BUSY (70_reset R215, 92 D11); safe -/
  | hostWriteWhileBusy
deriving DecidableEq, Repr

/-- The scratch registers after reset: 10_state R31 leaves them unspecified. DESIGN CHOICE zero, unsafe (log 2). -/
def Scratch.reset : Scratch where
  mode := .valid .m0
  cur := 0
  part := 0
  rot := 0
  isel := 0
  raw := Vector.replicate 3 (Vector.replicate 2 Rgba.zero)
  pb := Vector.replicate 3 (Vector.replicate 2 0)
  sub := Vector.replicate 16 0
  idx := Vector.replicate 16 0
  idx2 := Vector.replicate 16 0
  ep := Vector.replicate 3 (Vector.replicate 2 Rgba.zero)
  pix := Vector.replicate 16 Rgba.zero

/-- The GSU registers after reset (10_state R31). -/
def Gsu.reset : Gsu where
  state := .idle
  cmd := .none
  pending := []
  status := .none
  before := []

/-- The machine right after reset (10_state R31, 70_reset R210), with nothing in the host's script. -/
def State.reset : State where
  scratch := Scratch.reset
  gsu := Gsu.reset
  mem := []
  queue := []
  replies := []
  turn := ⟨true, 0, 0⟩
  draws := 0

end Sys2Proof.Machine
end

