-- ==== Sys2Proof/Machine/Flags.lean ====
section
/-! DEFINITION. The hardware "has no status flags and no condition codes" (10_state R23); the only outcome a host
sees beside output bytes is GSU.status (R25). Here are the sizes a DECODE_TEXTURE is checked by (R26, 44_gather
R173) and the status its issue step gives. -/

namespace Sys2Proof.Machine

/-- `ceil(n/4) = (n + 3) div 4`, on exact naturals (44_gather R182). -/
def ceilQuarter (n : Nat) : Nat := (n + 3) / 4

/-- WB, the width of the block grid (10_state R26). -/
def gridWidth (c : TextureCmd) : Nat := ceilQuarter c.width

/-- HB, the height of the block grid (10_state R26). -/
def gridHeight (c : TextureCmd) : Nat := ceilQuarter c.height

/-- NEED_IN = WB*HB*16 (10_state R26). -/
def needIn (c : TextureCmd) : Nat := gridWidth c * gridHeight c * 16

/-- NEED_OUT = WIDTH*HEIGHT*4 (10_state R26). -/
def needOut (c : TextureCmd) : Nat := c.width * c.height * 4

/-- The length checks, in their order: the error status, or none if both pass (44_gather R173, 60_exceptions
R196). -/
def lengthError (c : TextureCmd) : Option Status :=
  if c.inLen < needIn c then some .inputTooShort
  else if c.outLen < needOut c then some .outputTooShort
  else none

/-- The numeric status code (10_state R25; 93 U16): NONE has no code. -/
def Status.code : Status → Option Nat
  | .none => Option.none
  | .ok => some 0
  | .inputTooShort => some 1
  | .outputTooShort => some 2

end Sys2Proof.Machine
end

