-- ==== Sys2Proof/Machine/Operands.lean ====
section
/-! DEFINITION. How a field becomes an operand of the combiner: the p-bit append and the expansion of an endpoint
channel (41_endpoint R111, R112), the weight an index selects (R113), the interpolation of one channel (R114),
the pixel blend (43_color R151) and the component rotation (R153). All on unsigned naturals (00_scope R14). -/

namespace Sys2Proof.Machine

/-- `{RAW, PB}` where the mode has p-bits, else `RAW` (41_endpoint R111). -/
def withPBit (hasP : Bool) (raw pbit : Nat) : Nat := if hasP then raw * 2 + pbit else raw

/-- `Expand(u, n)` (41_endpoint R112). -/
def expand (u n : Nat) : Nat := ((u <<< (8 - n)) ||| (u >>> (2 * n - 8))) &&& 0xFF

/-- `WEIGHT_b[i]` (41_endpoint R113). -/
def weight (b i : Nat) : Nat :=
  if b = 2 then Tables.weight2.getD i 0
  else if b = 3 then Tables.weight3.getD i 0
  else Tables.weight4.getD i 0

/-- `Interp(e0, e1, w)` (41_endpoint R114). -/
def interp (e0 e1 w : Nat) : Nat := ((64 - w) * e0 + w * e1 + 32) >>> 6

/-- `Interp` on channel registers; the result fits 8 bits (41_endpoint R115). -/
def interpByte (e0 e1 : Byte) (w : Nat) : Byte := BitVec.ofNat 8 (interp e0.toNat e1.toNat w)

/-- A pixel before rotation: colour weight `cw`, alpha weight `aw` (43_color R151). -/
def blend (e0 e1 : Rgba) (cw aw : Nat) : Rgba where
  r := interpByte e0.r e1.r cw
  g := interpByte e0.g e1.g cw
  b := interpByte e0.b e1.b cw
  a := interpByte e0.a e1.a aw

/-- Component rotation (43_color R153). -/
def rotate (rot : Nat) (p : Rgba) : Rgba :=
  if rot = 1 then ⟨p.a, p.g, p.b, p.r⟩
  else if rot = 2 then ⟨p.r, p.a, p.b, p.g⟩
  else if rot = 3 then ⟨p.r, p.g, p.a, p.b⟩
  else p

/-- The four bytes of a pixel in memory: R, G, B, A (20_memory R46). -/
def pixelBytes (p : Rgba) : List Byte := [p.r, p.g, p.b, p.a]

end Sys2Proof.Machine
end

