-- ==== Sys2Proof/Machine/Ops.lean ====
section
/-! DEFINITION. The named operations over memory and registers: one byte of host memory, MemRead and MemWrite
with their bounds (00_scope R16), the used ranges of a command (20_memory R54), the free scratch a block decode
starts from (40_mode R93), replies and the schedule. The hardware has no trap entry and no return from one
(60_exceptions R197, R198): what an error does is the status of `lengthError`. -/

namespace Sys2Proof.Machine

/-! Outcomes. -/

/-- Go on from a next state; a fault or a refusal stays. -/
def andThen {α β : Type} (o : Host.Outcome α Fault Refusal) (f : α → Host.Outcome β Fault Refusal) :
    Host.Outcome β Fault Refusal :=
  match o with
  | .next s => f s
  | .fault r => .fault r
  | .refused r => .refused r

/-! One byte of memory. -/

/-- The canonical form: addresses strictly rising, no byte equal to what an unlisted address reads as. -/
abbrev Memory.wf (m : Memory) : Prop :=
  m.Pairwise (fun x y => x.1 < y.1) ∧ ∀ c ∈ m, c.2 ≠ Config.unwrittenByte

/-- The byte at an address. -/
def Memory.read : Memory → Nat → Byte
  | [], _ => Config.unwrittenByte
  | c :: m, a => if c.1 = a then c.2 else Memory.read m a

/-- Write one byte, keeping the canonical form. -/
def Memory.write : Memory → Nat → Byte → Memory
  | [], a, b => if b = Config.unwrittenByte then [] else [(a, b)]
  | c :: m, a, b =>
    if a < c.1 then (if b = Config.unwrittenByte then c :: m else (a, b) :: c :: m)
    else if a = c.1 then (if b = Config.unwrittenByte then m else (a, b) :: m)
    else c :: Memory.write m a b

/-- The bytes at `a`, `a + 1`, …, `n` of them, the lowest address first. -/
def Memory.readBytes (m : Memory) (a : Nat) : Nat → List Byte
  | 0 => []
  | n + 1 => m.read a :: Memory.readBytes m (a + 1) n

/-- Write bytes from address `a` on, the first at `a`. -/
def Memory.writeBytes : Memory → Nat → List Byte → Memory
  | m, _, [] => m
  | m, a, b :: bs => Memory.writeBytes (m.write a b) (a + 1) bs

/-! The buffers of a command. -/

/-- `MemRead(IN, off, n)`: defined only inside the declared length (00_scope R16). -/
def memReadIn (c : TextureCmd) (m : Memory) (off n : Nat) : Option (List Byte) :=
  if off + n ≤ c.inLen then some (m.readBytes (c.inBase + off) n) else none

/-- `MemWrite(OUT, off, n, v)`: defined only inside the declared length (00_scope R16). -/
def memWriteOut (c : TextureCmd) (m : Memory) (off : Nat) (v : List Byte) : Option Memory :=
  if off + v.length ≤ c.outLen then some (m.writeBytes (c.outBase + off) v) else none

/-- The address lies in the used range IN[0 .. NEED_IN) (20_memory R41). -/
def inUsed (c : TextureCmd) (a : Nat) : Bool := decide (c.inBase ≤ a) && decide (a < c.inBase + needIn c)

/-- The address lies in the used range OUT[0 .. NEED_OUT) (20_memory R42). -/
def outUsed (c : TextureCmd) (a : Nat) : Bool := decide (c.outBase ≤ a) && decide (a < c.outBase + needOut c)

/-- The used ranges of IN and OUT share a byte address (20_memory R54, 70_reset R216). DESIGN CHOICE, safe (log 30): where
IN_LEN < NEED_IN or OUT_LEN < NEED_OUT the spec does not say whether the addresses past the declared length belong to
the used range; here they do, so such a command can be refused where its buffers as declared are disjoint. -/
def buffersOverlap (c : TextureCmd) : Bool :=
  decide (0 < needIn c) && decide (0 < needOut c)
    && decide (c.inBase < c.outBase + needOut c) && decide (c.outBase < c.inBase + needIn c)

/-- The byte belongs to the output of the running transaction, so a host read of it is a draw (20_memory R47). -/
def State.outputInFlux (s : State) (a : Nat) : Bool :=
  match s.gsu.state, s.gsu.cmd with
  | .busy, some c => outUsed c a
  | _, _ => false

/-- The byte belongs to a used range of the running transaction, so a host write to it is refused (70_reset
R215). -/
def State.claimed (s : State) (a : Nat) : Bool :=
  match s.gsu.state, s.gsu.cmd with
  | .busy, some c => inUsed c a || outUsed c a
  | _, _ => false

/-! Scratch registers. -/

/-- Four free channel values, from scratch cell `k` on. -/
def freeRgba (draw k : Nat) : Rgba :=
  ⟨Config.freeScratch draw k, Config.freeScratch draw (k + 1), Config.freeScratch draw (k + 2),
    Config.freeScratch draw (k + 3)⟩

/-- A free content of the MODE register, 0..7 or INVALID (10_state R20). -/
def freeMode (draw : Nat) : ModeReg :=
  match (Config.freeScratch draw 3).toNat % 9 with
  | 0 => .valid .m0
  | 1 => .valid .m1
  | 2 => .valid .m2
  | 3 => .valid .m3
  | 4 => .valid .m4
  | 5 => .valid .m5
  | 6 => .valid .m6
  | 7 => .valid .m7
  | _ => .invalid

/-- The scratch registers before a block decode writes any: every one a free value, the cursor within 0..128
(10_state R21, R22; 40_mode R93; 93 U11; log 3). -/
def Scratch.free (draw : Nat) : Scratch where
  mode := freeMode draw
  cur := BitVec.ofNat 8 (Config.freeCursor draw % 129)
  part := (Config.freeScratch draw 0).setWidth 6
  rot := (Config.freeScratch draw 1).setWidth 2
  isel := (Config.freeScratch draw 2).setWidth 1
  raw := Vector.ofFn fun s => Vector.ofFn fun e => freeRgba draw (100 + 8 * s.val + 4 * e.val)
  pb := Vector.ofFn fun s => Vector.ofFn fun e => (Config.freeScratch draw (200 + 2 * s.val + e.val)).setWidth 1
  sub := Vector.ofFn fun p => (Config.freeScratch draw (300 + p.val)).setWidth 2
  idx := Vector.ofFn fun p => (Config.freeScratch draw (400 + p.val)).setWidth 4
  idx2 := Vector.ofFn fun p => (Config.freeScratch draw (500 + p.val)).setWidth 3
  ep := Vector.ofFn fun s => Vector.ofFn fun e => freeRgba draw (600 + 8 * s.val + 4 * e.val)
  pix := Vector.ofFn fun p => freeRgba draw (700 + 4 * p.val)

/-- Run a block decode on the scratch registers; one draw of free values (log 3). -/
def State.withBdu (s : State) (f : Scratch → Scratch) : State :=
  { s with scratch := f (Scratch.free s.draws), draws := s.draws + 1 }

/-- Replace host memory. -/
def State.withMem (s : State) (m : Memory) : State := { s with mem := m }

/-! The host and the schedule. -/

/-- Give the host a reply. -/
def State.reply (s : State) (r : Reply) : State := { s with replies := r :: s.replies }

/-- Take the first action off the host's script. -/
def State.popAction (s : State) : State := { s with queue := s.queue.tail }

/-- Draw the schedule of the next step (44_gather R176; log 7, log 8). -/
def State.redraw (s : State) : State :=
  { s with
    turn := ⟨Config.freeHostFirst s.draws, Config.freePick s.draws, Config.freeExtraLanes s.draws⟩
    draws := s.draws + 1 }

end Sys2Proof.Machine
end

