-- ==== Sys2Proof/Machine/Bdu.lean ====
section
/-! DEFINITION. The four units of the block decoder unit as operations on the scratch registers, in the order of
the chain MFX, PLE, EUI, PCC (40_mode R102). The nine block meanings (Machine/Blocks.lean) are built from them. -/

namespace Sys2Proof.Machine

/-- RAW[s][e], four channels, from a block's fields; `base` keeps the channels the mode lacks (40_mode R92). -/
def rawEndpoint (hasAlpha : Bool) (f : BlockFields) (base : Rgba) (k : Nat) : Rgba where
  r := BitVec.ofNat 8 (f.red.getD k 0)
  g := BitVec.ofNat 8 (f.green.getD k 0)
  b := BitVec.ofNat 8 (f.blue.getD k 0)
  a := if hasAlpha then BitVec.ofNat 8 (f.alpha.getD k 0) else base.a

/-- Which p-bits a mode has (30_encoding R61, 41_endpoint R111). -/
inductive PBits where
  | none
  | unique
  | shared
deriving DecidableEq, Repr

/-! What a row of the mode table says of the units (30_encoding R61). Every parameter of a mode comes from that row, so
a correction of the table corrects the decode (92 D24; log 1). -/

/-- The mode's p-bits: EPB and SPB (30_encoding R61). -/
def modePBits (q : ModeParams) : PBits :=
  if q.epb = 1 then .unique else if q.spb = 1 then .shared else .none

/-- The mode has alpha endpoints: AB > 0 (40_mode R92). -/
def modeHasAlpha (q : ModeParams) : Bool := decide (0 < q.ab)

/-- The mode has p-bits: "EPB = 1 or SPB = 1" (41_endpoint R111). -/
def modeHasP (q : ModeParams) : Bool := decide (modePBits q ≠ .none)

/-- The width `n` of an endpoint channel of `raw` bits, its p-bit appended where the mode has one (41_endpoint R111). -/
def precision (q : ModeParams) (raw : Nat) : Nat := if modeHasP q then raw + 1 else raw

/-- The width of an expanded alpha endpoint, none for a mode without alpha endpoints (41_endpoint R111, R112). -/
def alphaPrecision (q : ModeParams) : Option Nat := if modeHasAlpha q then some (precision q q.ab) else none

/-- PB[s][e] from a block's fields, where the mode has p-bits (40_mode R92). -/
def pBit (kind : PBits) (f : BlockFields) (base : BitVec 1) (s e : Nat) : BitVec 1 :=
  match kind with
  | .none => base
  | .unique => BitVec.ofNat 1 (f.uniqueP.getD (2 * s + e) 0)
  | .shared => BitVec.ofNat 1 (f.sharedP.getD s 0)

/-- MFX: write MODE, `cur`, PART, ROT, ISEL, and RAW, PB, IDX as far as the mode has them (40_mode R92, R93). The
cursor has passed every field and stands at 128 (10_state R22). -/
def mfx (m : Mode) (ns : Nat) (hasAlpha : Bool) (kind : PBits) (f : BlockFields) (sc : Scratch) : Scratch :=
  { sc with
    mode := .valid m
    cur := 128
    part := BitVec.ofNat 6 f.part
    rot := BitVec.ofNat 2 f.rot
    isel := BitVec.ofNat 1 f.isel
    raw := Vector.ofFn fun s => Vector.ofFn fun e =>
      if s.val < ns then rawEndpoint hasAlpha f sc.raw[s][e] (2 * s.val + e.val) else sc.raw[s][e]
    pb := Vector.ofFn fun s => Vector.ofFn fun e =>
      if s.val < ns then pBit kind f sc.pb[s][e] s.val e.val else sc.pb[s][e]
    idx := Vector.ofFn fun p => BitVec.ofNat 4 (f.idx.getD p.val 0) }

/-- MFX: write IDX2, where IB2 > 0: in modes 4 and 5 only (40_mode R92, R93, R105). -/
def mfxSecondary (f : BlockFields) (sc : Scratch) : Scratch :=
  { sc with idx2 := Vector.ofFn fun p => BitVec.ofNat 3 (f.idx2.getD p.val 0) }

/-- PLE: write SUB from PART (42_partition R131). -/
def ple (ns : Nat) (sc : Scratch) : Scratch :=
  { sc with sub := Vector.ofFn fun p => BitVec.ofNat 2 (subsetOf ns sc.part.toNat p.val) }

/-- One expanded channel (41_endpoint R111, R112). -/
def unpackChannel (hasP : Bool) (n : Nat) (raw : Byte) (pbit : BitVec 1) : Byte :=
  BitVec.ofNat 8 (expand (withPBit hasP raw.toNat pbit.toNat) n)

/-- EP[s][e]: the colour channels expanded from `nc` bits, alpha from `na` bits, or 255 for a mode without alpha
endpoints (41_endpoint R112). -/
def unpackEndpoint (hasP : Bool) (nc : Nat) (na : Option Nat) (raw : Rgba) (pbit : BitVec 1) : Rgba where
  r := unpackChannel hasP nc raw.r pbit
  g := unpackChannel hasP nc raw.g pbit
  b := unpackChannel hasP nc raw.b pbit
  a := match na with
    | some n => unpackChannel hasP n raw.a pbit
    | none => 255

/-- EUI: write EP[s][e] for `s < NS` (41_endpoint R110, R112). -/
def eui (ns : Nat) (hasP : Bool) (nc : Nat) (na : Option Nat) (sc : Scratch) : Scratch :=
  { sc with
    ep := Vector.ofFn fun s => Vector.ofFn fun e =>
      if s.val < ns then unpackEndpoint hasP nc na sc.raw[s][e] sc.pb[s][e] else sc.ep[s][e] }

/-- EP[s], the endpoint pair of subset `s` (43_color R151); SUB is below 3 (42_partition R130). -/
def Scratch.endpoints (sc : Scratch) (s : Nat) : Vector Rgba 2 :=
  if h : s < 3 then sc.ep[s] else sc.ep[0]

/-- The weight of pixel `p`'s primary index, of width `b` (43_color R150). -/
def primaryWeight (b : Nat) (sc : Scratch) (p : Fin 16) : Nat := weight b sc.idx[p].toNat

/-- The weight of pixel `p`'s secondary index, of width `b` (43_color R150). -/
def secondaryWeight (b : Nat) (sc : Scratch) (p : Fin 16) : Nat := weight b sc.idx2[p].toNat

/-- PIX[p] from the scratch registers and the pixel's two weights (43_color R151, R153, R154). -/
def combine (sc : Scratch) (p : Fin 16) (cw aw : Nat) : Rgba :=
  let pair := sc.endpoints sc.sub[p].toNat
  rotate sc.rot.toNat (blend pair[0] pair[1] cw aw)

/-- PCC: write PIX[0..15]; `cw` and `aw` give the colour and the alpha weight of each pixel (43_color R150 to R154). -/
def pcc (cw aw : Scratch → Fin 16 → Nat) (sc : Scratch) : Scratch :=
  { sc with pix := Vector.ofFn fun p => combine sc p (cw sc p) (aw sc p) }

/-- PCC with the index streams of the mode (43_color R150): one stream where IB2 = 0; else the primary stream drives
colour and the secondary alpha, the other way round where the mode has an index selector and ISEL = 1 (R152). -/
def pccStreams (q : ModeParams) (sc : Scratch) : Scratch :=
  if q.ib2 = 0 then pcc (primaryWeight q.ib) (primaryWeight q.ib) sc
  else if q.isb = 0 ∨ sc.isel = 0 then pcc (primaryWeight q.ib) (secondaryWeight q.ib2) sc
  else pcc (secondaryWeight q.ib2) (primaryWeight q.ib) sc

/-- The chain MFX, PLE, EUI, PCC on a block of mode `m` (40_mode R102), with the parameters of the mode's row of the
mode table (30_encoding R61). -/
def chain (m : Mode) (f : BlockFields) (sc : Scratch) : Scratch :=
  let q := Tables.modeParams m
  let extracted := mfx m q.ns (modeHasAlpha q) (modePBits q) f sc
  let both := if q.ib2 = 0 then extracted else mfxSecondary f extracted
  pccStreams q (eui q.ns (modeHasP q) (precision q q.cb) (alphaPrecision q) (ple q.ns both))

end Sys2Proof.Machine
end

