-- ==== Sys2Proof/Machine/Blocks.lean ====
section
/-! DEFINITION. The meanings of the nine block formats (40_mode R94 to R101 and R106). Each `run…` writes the
scratch registers its rule writes; the registers it does not write keep the free value they had (40_mode R93,
log 3). The numbers of a rule (subsets, p-bits, precisions, index widths) are those of the mode's row of
Tables.modeParams, the one place they stand in (92 D24); Laws/Blocks.lean spells each mode's chain out with them.
`blockRun` is the BDU on a block (R102), which exec's arms and the two host transactions share. -/

namespace Sys2Proof.Machine

/-- 40_mode R94: a mode 0 block. -/
def runM0 (f : BlockFields) (sc : Scratch) : Scratch := chain .m0 f sc

/-- 40_mode R95: a mode 1 block. -/
def runM1 (f : BlockFields) (sc : Scratch) : Scratch := chain .m1 f sc

/-- 40_mode R96: a mode 2 block. -/
def runM2 (f : BlockFields) (sc : Scratch) : Scratch := chain .m2 f sc

/-- 40_mode R97: a mode 3 block. -/
def runM3 (f : BlockFields) (sc : Scratch) : Scratch := chain .m3 f sc

/-- 40_mode R98: a mode 4 block; ISEL chooses which stream drives colour (43_color R152). -/
def runM4 (f : BlockFields) (sc : Scratch) : Scratch := chain .m4 f sc

/-- 40_mode R99: a mode 5 block. -/
def runM5 (f : BlockFields) (sc : Scratch) : Scratch := chain .m5 f sc

/-- 40_mode R100: a mode 6 block. -/
def runM6 (f : BlockFields) (sc : Scratch) : Scratch := chain .m6 f sc

/-- 40_mode R101: a mode 7 block. -/
def runM7 (f : BlockFields) (sc : Scratch) : Scratch := chain .m7 f sc

/-- 40_mode R106: a mode-less block writes MODE and PIX only. -/
def runInv (sc : Scratch) : Scratch :=
  { sc with mode := .invalid, pix := Vector.replicate 16 Rgba.zero }

/-- The BDU on a block (40_mode R102). -/
def blockRun : Block → Scratch → Scratch
  | .mode .m0 f => runM0 f
  | .mode .m1 f => runM1 f
  | .mode .m2 f => runM2 f
  | .mode .m3 f => runM3 f
  | .mode .m4 f => runM4 f
  | .mode .m5 f => runM5 f
  | .mode .m6 f => runM6 f
  | .mode .m7 f => runM7 f
  | .modeless => runInv

/-- `DecodeBlock(blk)` (40_mode R102) as a function of the block alone (R103): what the BDU's chain computes does
not depend on the scratch it starts from, so it is read off a run from the reset scratch. -/
def decodeBlockPixels (blk : Nat) : Vector Rgba 16 := (blockRun (decodeBlk blk) Scratch.reset).pix

/-- DECODE.M0 (40_mode R94). -/
def execDecodeM0 (f : BlockFields) (s : State) : Host.Outcome State Fault Refusal := .next (s.withBdu (runM0 f))

/-- DECODE.M1 (40_mode R95). -/
def execDecodeM1 (f : BlockFields) (s : State) : Host.Outcome State Fault Refusal := .next (s.withBdu (runM1 f))

/-- DECODE.M2 (40_mode R96). -/
def execDecodeM2 (f : BlockFields) (s : State) : Host.Outcome State Fault Refusal := .next (s.withBdu (runM2 f))

/-- DECODE.M3 (40_mode R97). -/
def execDecodeM3 (f : BlockFields) (s : State) : Host.Outcome State Fault Refusal := .next (s.withBdu (runM3 f))

/-- DECODE.M4 (40_mode R98). -/
def execDecodeM4 (f : BlockFields) (s : State) : Host.Outcome State Fault Refusal := .next (s.withBdu (runM4 f))

/-- DECODE.M5 (40_mode R99). -/
def execDecodeM5 (f : BlockFields) (s : State) : Host.Outcome State Fault Refusal := .next (s.withBdu (runM5 f))

/-- DECODE.M6 (40_mode R100). -/
def execDecodeM6 (f : BlockFields) (s : State) : Host.Outcome State Fault Refusal := .next (s.withBdu (runM6 f))

/-- DECODE.M7 (40_mode R101). -/
def execDecodeM7 (f : BlockFields) (s : State) : Host.Outcome State Fault Refusal := .next (s.withBdu (runM7 f))

/-- DECODE.INV (40_mode R106). -/
def execDecodeInv (s : State) : Host.Outcome State Fault Refusal := .next (s.withBdu runInv)

end Sys2Proof.Machine
end

