-- ==== Sys2Proof/Machine/GatherScatter.lean ====
section
/-! DEFINITION. The gather-scatter unit: the two host transactions (44_gather R170 to R174), the block step
(R175), several lanes at once (R176) and completion (R177); and the image a transaction writes, pixel by pixel. -/

namespace Sys2Proof.Machine

/-! The host transactions. -/

/-- DECODE_BLOCK (44_gather R170): the BDU scratch is written and the 16 pixels go to the host; no memory and no
GSU register changes. An operand that is not 16 bytes is refused. -/
def execDecodeBlock (bytes : List Byte) (s : State) : Host.Outcome State Fault Refusal :=
  match decodeBytes bytes with
  | .ok b =>
    let t := s.withBdu (blockRun b)
    .next (t.reply (.pixels t.scratch.pix))
  | .error _ => .refused .blockNotSixteenBytes

/-- The block set (44_gather R174), row-major. -/
def blockGrid (c : TextureCmd) : List (Nat × Nat) :=
  (List.range (gridHeight c)).flatMap fun row => (List.range (gridWidth c)).map fun col => (col, row)

/-- The issue step (44_gather R171, R173, R174): a length error sets the status and leaves the GSU IDLE with no
memory access; else the GSU is BUSY with every block pending. GSU.status is written only at the end of a
transaction (10_state R25; log 15). -/
def State.issue (s : State) (c : TextureCmd) : State :=
  match lengthError c with
  | some e => { s with gsu := ⟨.idle, none, [], e, []⟩ }
  | none => { s with gsu := ⟨.busy, some c, blockGrid c, s.gsu.status, s.mem⟩ }

/-- DECODE_TEXTURE (44_gather R171, R172): refused while BUSY, for dimensions outside u32 and for overlapping
used ranges (R181; the order is log 13); else the issue step. -/
def execDecodeTexture (c : TextureCmd) (s : State) : Host.Outcome State Fault Refusal :=
  if s.gsu.state = .busy then .refused .textureWhileBusy
  else if c.dimsFit = false then .refused .dimensionNotU32
  else if buffersOverlap c then .refused .buffersOverlap
  else .next (s.issue c)

/-! The block step. -/

/-- The block load's offset in IN (44_gather R175, R185). -/
def blockOffset (c : TextureCmd) (col row : Nat) : Nat := (row * gridWidth c + col) * 16

/-- The pixel store's offset in OUT (44_gather R175, R185). -/
def pixelOffset (c : TextureCmd) (x y : Nat) : Nat := (y * c.width + x) * 4

/-- Store the listed pixels of block (col, row), each only if it lies inside the image (44_gather R175, R180). -/
def storePixels (c : TextureCmd) (col row : Nat) (px : Vector Rgba 16) : List (Fin 16) → Memory → Option Memory
  | [], m => some m
  | p :: ps, m =>
    let x := col * 4 + p.val % 4
    let y := row * 4 + p.val / 4
    if x < c.width ∧ y < c.height then
      match memWriteOut c m (pixelOffset c x y) (pixelBytes px[p]) with
      | some m' => storePixels c col row px ps m'
      | none => none
    else storePixels c col row px ps m

/-- One block step for the block (col, row): load, decode, scatter (44_gather R175). -/
def blockStep (c : TextureCmd) (col row : Nat) (s : State) : Host.Outcome State Fault Refusal :=
  match memReadIn c s.mem (blockOffset c col row) 16 with
  | none => .fault .inputOutOfBounds
  | some bytes =>
    let t := s.withBdu (blockRun (decodeBlk (leNat bytes)))
    match storePixels c col row t.scratch.pix (List.finRange 16) t.mem with
    | none => .fault .outputOutOfBounds
    | some m => .next (t.withMem m)

/-- Take the pending block that `pick` names out of GSU.pending (44_gather R175). -/
def State.dropPending (s : State) (k : Nat) : State :=
  { s with gsu := { s.gsu with pending := s.gsu.pending.eraseIdx k } }

/-- Block steps of `n` lanes, one block after another, the blocks taken as the digits of `pick` say, until none is
pending (44_gather R176; log 7, log 8). -/
def blockSteps (c : TextureCmd) : Nat → Nat → State → Host.Outcome State Fault Refusal
  | 0, _, s => .next s
  | n + 1, pick, s =>
    match s.gsu.pending with
    | [] => .next s
    | q :: qs =>
      let k := pick % (qs.length + 1)
      let b := (q :: qs).getD k q
      andThen (blockStep c b.1 b.2 (s.dropPending k)) (blockSteps c n (pick / (qs.length + 1)))

/-- Completion (44_gather R177): status OK, IDLE; the command record is gone (10_state R26, R31; log 16). -/
def State.complete (s : State) : State := { s with gsu := ⟨.idle, none, [], .ok, []⟩ }

/-- How many lanes fire: at least one, at most LANES (44_gather R176; log 8). -/
def lanesFiring (t : Turn) : Nat := min t.extraLanes Config.lanesMinusOne + 1

/-- A step of a BUSY GSU: block steps while blocks are pending (44_gather R175, R176), else completion (R177). -/
def gsuMove (s : State) : Host.Outcome State Fault Refusal :=
  match s.gsu.cmd with
  | none => .fault .busyWithoutCommand
  | some c =>
    match s.gsu.pending with
    | [] => .next s.complete
    | _ :: _ => blockSteps c (lanesFiring s.turn) s.turn.pick s

/-! The image of a transaction. -/

/-- The 128-bit number of block (col, row) in a memory. -/
def blockAt (c : TextureCmd) (m : Memory) (col row : Nat) : Nat :=
  leNat (m.readBytes (c.inBase + blockOffset c col row) 16)

/-- The pixel the transaction writes at (x, y): pixel (x mod 4, y mod 4) of block (x div 4, y div 4) (44_gather
R175, R180). -/
def imagePixel (c : TextureCmd) (m : Memory) (x y : Nat) : Rgba :=
  (decodeBlockPixels (blockAt c m (x / 4) (y / 4)))[4 * (y % 4) + x % 4]'(by omega)

/-- The byte the transaction writes at offset `off` of OUT, for `off < NEED_OUT` (20_memory R42, R46). -/
def imageByte (c : TextureCmd) (m : Memory) (off : Nat) : Byte :=
  (pixelBytes (imagePixel c m (off / 4 % c.width) (off / 4 / c.width))).getD (off % 4) 0

end Sys2Proof.Machine
end

