-- ==== Sys2Proof/Machine/Dispatch.lean ====
section
/-! DEFINITION. exec: one arm per constructor of Instr, each one call of its meaning. -/

namespace Sys2Proof.Machine

def exec (i : Instr) (s : State) : Host.Outcome State Fault Refusal :=
  match i with
  | .decodeM0 f => Sys2Proof.Machine.execDecodeM0 f s
  | .decodeM1 f => Sys2Proof.Machine.execDecodeM1 f s
  | .decodeM2 f => Sys2Proof.Machine.execDecodeM2 f s
  | .decodeM3 f => Sys2Proof.Machine.execDecodeM3 f s
  | .decodeM4 f => Sys2Proof.Machine.execDecodeM4 f s
  | .decodeM5 f => Sys2Proof.Machine.execDecodeM5 f s
  | .decodeM6 f => Sys2Proof.Machine.execDecodeM6 f s
  | .decodeM7 f => Sys2Proof.Machine.execDecodeM7 f s
  | .decodeInv => Sys2Proof.Machine.execDecodeInv s
  | .decodeBlock bytes => Sys2Proof.Machine.execDecodeBlock bytes s
  | .decodeTexture cmd => Sys2Proof.Machine.execDecodeTexture cmd s

end Sys2Proof.Machine
end

