-- ==== Sys2Proof/Machine/HostPort.lean ====
section
/-! DEFINITION. The host's side of the machine: who moves next, the actions of the host's script (30_encoding R78;
20_memory R47, R57; 70_reset R210, R215), and how an instruction of the opcode table is put where the next step
fetches it. -/

namespace Sys2Proof.Machine

/-- The host's next action can be taken now: WAIT only when GSU.state = IDLE (30_encoding R78). -/
def State.hostReady (s : State) : Bool :=
  match s.queue with
  | [] => false
  | .wait :: _ => s.gsu.state == .idle
  | _ :: _ => true

/-- The byte a host read of address `a` answers (20_memory R47). -/
def State.hostByte (s : State) (a : Nat) : Byte :=
  if s.outputInFlux a then Config.freeReadByte s.draws a else s.mem.read a

/-- The bytes of a host READ of `base[lo .. hi)`. -/
def State.hostBytes (s : State) (base lo hi : Nat) : List Byte :=
  (List.range (hi - lo)).map fun k => s.hostByte (base + lo + k)

/-- READ: the bytes go to the host; one draw of free values (20_memory R47, R49). -/
def hostRead (base lo hi : Nat) (s : State) : Host.Outcome State Fault Refusal :=
  .next { s.reply (.bytes (s.hostBytes base lo hi)) with draws := s.draws + 1 }

/-- A host write: refused if it touches a used range of a running transaction (70_reset R215). -/
def hostWrite (addr : Nat) (bytes : List Byte) (s : State) : Host.Outcome State Fault Refusal :=
  if (List.range bytes.length).any (fun k => s.claimed (addr + k)) then .refused .hostWriteWhileBusy
  else .next (s.withMem (s.mem.writeBytes addr bytes))

/-- The byte at offset `off` of OUT after a reset abandons the transaction: old or new (70_reset R210; log 10). -/
def abandonedByte (draw : Nat) (c : TextureCmd) (before : Memory) (off : Nat) : Byte :=
  if Config.freeNewByte draw off then imageByte c before off else before.read (c.outBase + off)

/-- Host memory after a reset: untouched, but for OUT[0 .. NEED_OUT) of an abandoned transaction (70_reset
R210). -/
def State.memAfterReset (s : State) : Memory :=
  match s.gsu.state, s.gsu.cmd with
  | .busy, some c =>
    s.mem.writeBytes c.outBase ((List.range (needOut c)).map (abandonedByte s.draws c s.gsu.before))
  | _, _ => s.mem

/-- Reset of the hardware (70_reset R210): the registers take the values of 10_state R31, the scratch registers, which
it leaves unspecified, free ones (log 2); the host's script and its
replies are the host's (log 23). -/
def hostReset (s : State) : Host.Outcome State Fault Refusal :=
  .next { s with scratch := Scratch.free s.draws, gsu := Gsu.reset, mem := s.memAfterReset, draws := s.draws + 1 }

/-- One action of the host's script. -/
def hostAct (a : HostAction) (s : State) : Host.Outcome State Fault Refusal :=
  match a with
  | .decodeBlock bytes => exec (.decodeBlock bytes) s
  | .decodeTexture c => exec (.decodeTexture c) s
  | .wait => .next s
  | .read base lo hi => hostRead base lo hi s
  | .write addr bytes => hostWrite addr bytes s
  | .poll => .next (s.reply (.status s.gsu.state s.gsu.status))
  | .reset => hostReset s

/-- One move of the machine: the host's next action, or a move of the busy GSU, or nothing while the GSU is IDLE
and the host has nothing to do (70_reset R211, 60_exceptions R205; log 7, log 14). -/
def machineMove (s : State) : Host.Outcome State Fault Refusal :=
  if s.hostReady && (s.gsu.state == .idle || s.turn.hostFirst) then
    match s.queue with
    | a :: _ => andThen (hostAct a s.popAction) fun t => .next t.redraw
    | [] => .next s
  else if s.gsu.state == .busy then andThen (gsuMove s) fun t => .next t.redraw
  else .next s

/-- The state with a DECODE_BLOCK of the table word as the host's next action, and the host to move (log 6,
log 21). -/
def fetchWordState (s : State) (nbits w : Nat) : State :=
  { s with
    queue := .decodeBlock (leBytes Config.blockBytes (w % 2 ^ nbits)) :: s.queue
    turn := { s.turn with hostFirst := true } }

end Sys2Proof.Machine
end

