-- ==== Sys2Proof/Machine/Step.lean ====
section
/-! DEFINITION. The step of the machine: one move of the host or of the GSU (00_scope R8). -/

namespace Sys2Proof.Machine

/-- One step (Machine/HostPort.lean, `machineMove`). -/
def step (s : State) : Host.Outcome State Fault Refusal := machineMove s

/-- `s` with the instruction of a row of spec/opcode_table.json where `step` fetches its next one: the operand of a
DECODE_BLOCK at the head of the host's script (log 6, log 21). -/
def State.withFetchWord (s : State) (nbits w : Nat) : State := fetchWordState s nbits w

end Sys2Proof.Machine
end

