-- ==== Sys2Proof/Safety.lean ====
section
/-! DEFINITION. What the claims are stated in: the invariant of the machine, the host duties of 44_gather R181, and
a safe step. -/

namespace Sys2Proof.Machine

/-- A command that a DECODE_TEXTURE may run: u32 dimensions, disjoint used ranges, both length checks pass
(44_gather R172, R173). -/
def CommandLegal (c : TextureCmd) : Prop :=
  c.dimsFit = true ∧ buffersOverlap c = false ∧ lengthError c = none

/-- The block that pixel byte `off` of OUT belongs to is still pending (44_gather R180). -/
def bytePending (c : TextureCmd) (pending : List (Nat × Nat)) (off : Nat) : Prop :=
  (off / 4 % c.width / 4, off / 4 / c.width / 4) ∈ pending

/-- The GSU registers are those of an IDLE unit, or those of a BUSY one with a legal command and a set of blocks of
its grid, each at most once (10_state R26, R27, R31; 44_gather R174). -/
def GsuInv (g : Gsu) : Prop :=
  match g.state with
  | .idle => g.cmd = none ∧ g.pending = [] ∧ g.before = []
  | .busy => ∃ c, g.cmd = some c ∧ CommandLegal c ∧ g.pending.Sublist (blockGrid c) ∧ Memory.wf g.before

/-- While a transaction runs: IN[0 .. NEED_IN) is as it was at issue (20_memory R57), and each byte of
OUT[0 .. NEED_OUT) holds its old value while its block is pending and its final one after (44_gather R175). -/
def BuffersInv (s : State) : Prop :=
  ∀ c, s.gsu.state = .busy → s.gsu.cmd = some c →
    (∀ a, inUsed c a = true → s.mem.read a = s.gsu.before.read a) ∧
    (∀ off < needOut c, bytePending c s.gsu.pending off →
      s.mem.read (c.outBase + off) = s.gsu.before.read (c.outBase + off)) ∧
    (∀ off < needOut c, ¬ bytePending c s.gsu.pending off →
      s.mem.read (c.outBase + off) = imageByte c s.gsu.before off)

/-- The invariant of the machine: canonical memory, the cursor within 0..128 (10_state R22), the GSU registers and
the buffers as the rules leave them. -/
structure Inv (s : State) : Prop where
  memory : Memory.wf s.mem
  cursor : s.scratch.cur.toNat ≤ 128
  gsu : GsuInv s.gsu
  buffers : BuffersInv s

/-- The host keeps its duties with this action (44_gather R181). -/
def HostDuty (s : State) : HostAction → Prop
  | .decodeBlock bytes => bytes.length = Config.blockBytes
  | .decodeTexture c => s.gsu.state = .idle ∧ c.dimsFit = true ∧ buffersOverlap c = false
  | .write addr bytes => ∀ k < bytes.length, s.claimed (addr + k) = false
  | .wait => True
  | .read _ _ _ => True
  | .poll => True
  | .reset => True

/-- A safe step: it answers a next state, no fault and no refusal. -/
def SafeStep (s : State) : Prop := ∃ t, step s = .next t

end Sys2Proof.Machine
end

