-- ==== Sys2Proof/Certificates/Slice0/Obligations.lean ====
section
/-! DEFINITION. The statements for the provers. Each says what a rule of spec/ says of the machine; "log n" names a
choice of the model (notes/assumptions/n.md). -/

namespace Sys2Proof.Claims
open Sys2Proof.Machine

/-! What the statements are written in. -/

/-- Bytes written as numbers. -/
def bytes (l : List Nat) : List Byte := l.map (BitVec.ofNat 8)

/-- Channel `k` of a pixel has these values. -/
def PixelIs (q : Rgba) (r g b a : Nat) : Prop :=
  q.r.toNat = r ∧ q.g.toNat = g ∧ q.b.toNat = b ∧ q.a.toNat = a

/-- The channel of a pixel of subset `s` with weight `w`, where endpoint number `k = 2*s + e` of the channel is
`ep k` (41_endpoint R114). -/
def lerp (ep : Nat → Nat) (s w : Nat) : Nat := interp (ep (2 * s)) (ep (2 * s + 1)) w

/-- Endpoint number `k` of a channel without p-bits, expanded from `n` bits (41_endpoint R112). -/
def plainEp (n : Nat) (channel : List Nat) (k : Nat) : Nat := expand (channel.getD k 0) n

/-- Endpoint number `k` of a channel with unique p-bits (41_endpoint R111, R112). -/
def uniqueEp (n : Nat) (f : BlockFields) (channel : List Nat) (k : Nat) : Nat :=
  expand (channel.getD k 0 * 2 + f.uniqueP.getD k 0) n

/-- Endpoint number `k` of a channel with one p-bit a subset (41_endpoint R111, R112). -/
def sharedEp (n : Nat) (f : BlockFields) (channel : List Nat) (k : Nat) : Nat :=
  expand (channel.getD k 0 * 2 + f.sharedP.getD (k / 2) 0) n

/-- The frame of a block format: nothing but BDU scratch registers (and the model's draw counter) changes. -/
def OnlyScratchChanges (s t : State) : Prop :=
  t.gsu = s.gsu ∧ (∀ a, t.mem.read a = s.mem.read a) ∧ t.mem = s.mem ∧ t.queue = s.queue ∧ t.replies = s.replies ∧
    t.turn = s.turn ∧ t.draws = s.draws + 1

/-- The registers the MFX writes in every mode (40_mode R92): MODE, the cursor at 128, PART, ROT, ISEL, the raw
colour endpoints of the `ns` subsets, and the primary indices. -/
def ExtractorWrites (m : Mode) (ns : Nat) (f : BlockFields) (sc : Scratch) : Prop :=
  sc.mode = .valid m ∧ sc.cur = 128 ∧ sc.part.toNat = f.part ∧ sc.rot.toNat = f.rot ∧ sc.isel.toNat = f.isel ∧
    (∀ (s : Fin 3) (e : Fin 2), s.val < ns →
      sc.raw[s][e].r.toNat = f.red.getD (2 * s.val + e.val) 0 ∧
      sc.raw[s][e].g.toNat = f.green.getD (2 * s.val + e.val) 0 ∧
      sc.raw[s][e].b.toNat = f.blue.getD (2 * s.val + e.val) 0) ∧
    (∀ p : Fin 16, sc.idx[p].toNat = f.idx.getD p.val 0)

/-- The raw alpha endpoints of the `ns` subsets (40_mode R92). -/
def AlphaWrites (ns : Nat) (f : BlockFields) (sc : Scratch) : Prop :=
  ∀ (s : Fin 3) (e : Fin 2), s.val < ns → sc.raw[s][e].a.toNat = f.alpha.getD (2 * s.val + e.val) 0

/-- The unique p-bits of the `ns` subsets (40_mode R92). -/
def UniquePWrites (ns : Nat) (f : BlockFields) (sc : Scratch) : Prop :=
  ∀ (s : Fin 3) (e : Fin 2), s.val < ns → sc.pb[s][e].toNat = f.uniqueP.getD (2 * s.val + e.val) 0

/-- The shared p-bits of the `ns` subsets, on both endpoints (40_mode R92). -/
def SharedPWrites (ns : Nat) (f : BlockFields) (sc : Scratch) : Prop :=
  ∀ (s : Fin 3) (e : Fin 2), s.val < ns → sc.pb[s][e].toNat = f.sharedP.getD s.val 0

/-- The secondary indices (40_mode R92). -/
def SecondaryWrites (f : BlockFields) (sc : Scratch) : Prop :=
  ∀ p : Fin 16, sc.idx2[p].toNat = f.idx2.getD p.val 0

/-- SUB[p] for every pixel (42_partition R131). -/
def SubsetsAre (sub : Nat → Nat) (sc : Scratch) : Prop := ∀ p : Fin 16, sc.sub[p].toNat = sub p.val

/-- The endpoint file of the `ns` subsets: endpoint number `2*s + e` of the channels (41_endpoint R112). -/
def EndpointsAre (ns : Nat) (r g b a : Nat → Nat) (sc : Scratch) : Prop :=
  ∀ (s : Fin 3) (e : Fin 2), s.val < ns →
    PixelIs sc.ep[s][e] (r (2 * s.val + e.val)) (g (2 * s.val + e.val)) (b (2 * s.val + e.val)) (a (2 * s.val + e.val))

/-- The host can move and the schedule lets it: the GSU is IDLE, or the host is first (log 7). -/
def HostMoves (s : State) : Prop := s.hostReady = true ∧ (s.gsu.state = .idle ∨ s.turn.hostFirst = true)

/-- The busy GSU moves: the host cannot, or it is not first (log 7). -/
def GsuMoves (s : State) : Prop := s.gsu.state = .busy ∧ (s.hostReady = false ∨ s.turn.hostFirst = false)

end Sys2Proof.Claims

open Sys2Proof Sys2Proof.Machine Sys2Proof.Claims

/-! Encoding. -/

/-- One block of each format, its bytes as 95_test_vectors spells them, decodes to the literal beside them. -/
def Obligations.SampleBlocksDecode : Prop :=
  decode (bytes [0x01, 0xFE, 0x1F, 0x00, 0x1E, 0x00, 0x00, 0x1E, 0xE0, 0xDF, 0xE1, 0x9B, 0xD8, 0x00, 0x00, 0x00]) =
    .ok (.decodeM0 { red := [0, 15, 15, 15, 0, 0], green := [0, 15, 0, 0, 0, 0], blue := [0, 15, 0, 0, 15, 15], uniqueP := [0, 1, 1, 1, 0, 0], idx := [0, 7, 3, 3, 4, 0, 3, 3, 0, 0, 0, 0, 0, 0, 0, 0] }) ∧
  decode (bytes [0x36, 0xC0, 0xFF, 0xFF, 0xC0, 0x0F, 0x00, 0xC0, 0x0F, 0x00, 0x12, 0x8D, 0xF5, 0x93, 0x24, 0x49]) =
    .ok (.decodeM1 { part := 13, red := [0, 63, 63, 63], green := [0, 63, 0, 0], blue := [0, 63, 0, 0], sharedP := [0, 1], idx := [0, 1, 2, 3, 4, 5, 6, 7, 1, 1, 1, 1, 1, 1, 1, 1] }) ∧
  decode (bytes [0x44, 0xFE, 0x07, 0x00, 0x00, 0x00, 0xFE, 0x07, 0x00, 0x00, 0x00, 0xFE, 0x97, 0x93, 0xCF, 0xC9]) =
    .ok (.decodeM2 { part := 8, red := [31, 31, 0, 0, 0, 0], green := [0, 0, 31, 31, 0, 0], blue := [0, 0, 0, 0, 31, 31], idx := [0, 1, 2, 3, 0, 1, 2, 3, 1, 1, 2, 3, 0, 1, 2, 1] }) ∧
  decode (bytes [0xF8, 0x00, 0xFE, 0x0A, 0x0A, 0xE0, 0xEF, 0x41, 0x01, 0xFE, 0x32, 0x9E, 0xC9, 0xC9, 0xC9, 0xAB]) =
    .ok (.decodeM3 { part := 15, red := [0, 127, 10, 20], green := [0, 127, 30, 40], blue := [0, 127, 50, 60], uniqueP := [0, 1, 1, 0], idx := [0, 1, 2, 3, 0, 1, 2, 3, 0, 1, 2, 3, 1, 1, 1, 1] }) ∧
  decode (bytes [0xB0, 0xE0, 0x83, 0x0F, 0x3E, 0xF0, 0xCB, 0xC9, 0xC9, 0xC9, 0x89, 0xC6, 0xFA, 0x77, 0x39, 0x05]) =
    .ok (.decodeM4 { rot := 1, isel := 1, red := [0, 31], green := [0, 31], blue := [0, 31], alpha := [0, 63], idx := [0, 1, 2, 3, 0, 1, 2, 3, 0, 1, 2, 3, 0, 1, 2, 3], idx2 := [0, 1, 2, 3, 4, 5, 6, 7, 7, 6, 5, 4, 3, 2, 1, 0] }) ∧
  decode (bytes [0xA0, 0x7F, 0x00, 0xE0, 0x0F, 0x04, 0xFE, 0x03, 0xC8, 0xC9, 0xC9, 0xC9, 0x6D, 0x6C, 0x6C, 0x6C]) =
    .ok (.decodeM5 { rot := 2, red := [127, 0], green := [0, 127], blue := [64, 64], alpha := [255, 0], idx := [0, 1, 2, 3, 0, 1, 2, 3, 0, 1, 2, 3, 0, 1, 2, 3], idx2 := [0, 3, 2, 1, 0, 3, 2, 1, 0, 3, 2, 1, 0, 3, 2, 1] }) ∧
  decode (bytes [0x40, 0xC0, 0x1F, 0xF0, 0x07, 0xFC, 0xFF, 0x00, 0x11, 0x32, 0x54, 0x76, 0x98, 0xBA, 0xDC, 0xFE]) =
    .ok (.decodeM6 { red := [0, 127], green := [0, 127], blue := [0, 127], alpha := [127, 0], uniqueP := [0, 1], idx := [0, 1, 2, 3, 4, 5, 6, 7, 8, 9, 10, 11, 12, 13, 14, 15] }) ∧
  decode (bytes [0x80, 0xC1, 0xFF, 0xE0, 0x03, 0x00, 0x3E, 0x00, 0xFF, 0xFF, 0x0F, 0xFE, 0x82, 0x01, 0x81, 0x00]) =
    .ok (.decodeM7 { part := 1, red := [31, 31, 0, 31], green := [0, 0, 0, 31], blue := [0, 0, 31, 31], alpha := [31, 31, 0, 31], uniqueP := [1, 1, 0, 1], idx := [0, 0, 0, 3, 0, 0, 0, 2, 0, 0, 0, 1, 0, 0, 0, 0] }) ∧
  decode (bytes [0x00, 0xA5, 0xA5, 0xA5, 0xA5, 0xA5, 0xA5, 0xA5, 0xA5, 0xA5, 0xA5, 0xA5, 0xA5, 0xA5, 0xA5, 0xA5]) = .ok .decodeInv

/-- 40_mode R90: MODE is INVALID exactly when bits 0..7 are all clear, else the lowest set bit among them, and the
decode of the block writes that into the MODE register, whatever the scratch registers held. -/
def Obligations.ModeIsTheLowestSetBit : Prop :=
  ∀ (blk : Nat) (sc : Scratch),
    ((blockRun (decodeBlk blk) sc).mode = .invalid ↔ ∀ k < 8, blk.testBit k = false) ∧
    ∀ m : Mode, (blockRun (decodeBlk blk) sc).mode = .valid m ↔
      blk.testBit m.number = true ∧ ∀ k < m.number, blk.testBit k = false

/-- 10_state R22, 40_mode R91, R92: whatever the block, its field reads start at bit MODE + 1, and after the last one
the cursor stands at 128. -/
def Obligations.CursorEndsAt128 : Prop :=
  ∀ (m : Mode) (blk : Nat), (extract m blk).2 = 128 ∧
    m.number + 1 + (fieldWidths m (extract m blk).1.part).sum = 128

/-- 30_encoding R63 to R70: the fields before the index region, at the bit positions of the format tables. -/
def Obligations.FieldsStandAtTheTablesPositions : Prop :=
  ∀ blk : Nat,
    (let f := (extract .m0 blk).1
     f.part = getBits blk 1 4 ∧ f.red = [5, 9, 13, 17, 21, 25].map (getBits blk · 4) ∧
     f.green = [29, 33, 37, 41, 45, 49].map (getBits blk · 4) ∧ f.blue = [53, 57, 61, 65, 69, 73].map (getBits blk · 4) ∧
     f.uniqueP = [77, 78, 79, 80, 81, 82].map (getBits blk · 1)) ∧
    (let f := (extract .m1 blk).1
     f.part = getBits blk 2 6 ∧ f.red = [8, 14, 20, 26].map (getBits blk · 6) ∧
     f.green = [32, 38, 44, 50].map (getBits blk · 6) ∧ f.blue = [56, 62, 68, 74].map (getBits blk · 6) ∧
     f.sharedP = [80, 81].map (getBits blk · 1)) ∧
    (let f := (extract .m2 blk).1
     f.part = getBits blk 3 6 ∧ f.red = [9, 14, 19, 24, 29, 34].map (getBits blk · 5) ∧
     f.green = [39, 44, 49, 54, 59, 64].map (getBits blk · 5) ∧ f.blue = [69, 74, 79, 84, 89, 94].map (getBits blk · 5)) ∧
    (let f := (extract .m3 blk).1
     f.part = getBits blk 4 6 ∧ f.red = [10, 17, 24, 31].map (getBits blk · 7) ∧
     f.green = [38, 45, 52, 59].map (getBits blk · 7) ∧ f.blue = [66, 73, 80, 87].map (getBits blk · 7) ∧
     f.uniqueP = [94, 95, 96, 97].map (getBits blk · 1)) ∧
    (let f := (extract .m4 blk).1
     f.rot = getBits blk 5 2 ∧ f.isel = getBits blk 7 1 ∧ f.red = [8, 13].map (getBits blk · 5) ∧
     f.green = [18, 23].map (getBits blk · 5) ∧ f.blue = [28, 33].map (getBits blk · 5) ∧
     f.alpha = [38, 44].map (getBits blk · 6)) ∧
    (let f := (extract .m5 blk).1
     f.rot = getBits blk 6 2 ∧ f.red = [8, 15].map (getBits blk · 7) ∧ f.green = [22, 29].map (getBits blk · 7) ∧
     f.blue = [36, 43].map (getBits blk · 7) ∧ f.alpha = [50, 58].map (getBits blk · 8)) ∧
    (let f := (extract .m6 blk).1
     f.red = [7, 14].map (getBits blk · 7) ∧ f.green = [21, 28].map (getBits blk · 7) ∧
     f.blue = [35, 42].map (getBits blk · 7) ∧ f.alpha = [49, 56].map (getBits blk · 7) ∧
     f.uniqueP = [63, 64].map (getBits blk · 1)) ∧
    (let f := (extract .m7 blk).1
     f.part = getBits blk 8 6 ∧ f.red = [14, 19, 24, 29].map (getBits blk · 5) ∧
     f.green = [34, 39, 44, 49].map (getBits blk · 5) ∧ f.blue = [54, 59, 64, 69].map (getBits blk · 5) ∧
     f.alpha = [74, 79, 84, 89].map (getBits blk · 5) ∧ f.uniqueP = [94, 95, 96, 97].map (getBits blk · 1))

/-- The index start IS of each mode (30_encoding R71). -/
def Sys2Proof.Claims.indexStart : Mode → Nat
  | .m0 => 83 | .m1 => 82 | .m2 => 99 | .m3 => 98 | .m4 => 50 | .m5 => 66 | .m6 => 65 | .m7 => 98

/-- The subset count NS and the primary index width IB of each mode (30_encoding R61). -/
def Sys2Proof.Claims.subsetsAndBits : Mode → Nat × Nat
  | .m0 => (3, 3) | .m1 => (2, 3) | .m2 => (3, 2) | .m3 => (2, 2)
  | .m4 => (1, 2) | .m5 => (1, 2) | .m6 => (1, 4) | .m7 => (2, 2)

/-- `wI(p)` of 30_encoding R71: IB - 1 at an anchor pixel, else IB. -/
def Sys2Proof.Claims.wI (m : Mode) (part p : Nat) : Nat :=
  if p ∈ anchors (subsetsAndBits m).1 part then (subsetsAndBits m).2 - 1 else (subsetsAndBits m).2

/-- `posI(p)` of 30_encoding R71. -/
def Sys2Proof.Claims.posI (m : Mode) (part : Nat) : Nat → Nat
  | 0 => indexStart m
  | p + 1 => posI m part p + wI m part p

/-- `wJ(p)` of 30_encoding R71, for IB2 = `bits`. -/
def Sys2Proof.Claims.wJ (bits p : Nat) : Nat := if p = 0 then bits - 1 else bits

/-- `posJ(p)` of 30_encoding R71, from the start of the secondary stream. -/
def Sys2Proof.Claims.posJ (bits start : Nat) : Nat → Nat
  | 0 => start
  | p + 1 => posJ bits start p + wJ bits p

/-- 30_encoding R71: every index stands where the recursion of the rule puts it, an anchor's index one bit short; the
secondary streams start at 81 (mode 4) and 97 (mode 5); the last index ends at bit 127. -/
def Obligations.IndicesStandWhereTheRuleSays : Prop :=
  (∀ (m : Mode) (blk p : Nat), p < 16 →
    (extract m blk).1.idx.getD p 0 =
      getBits blk (posI m (extract m blk).1.part p) (wI m (extract m blk).1.part p)) ∧
  (∀ blk p : Nat, p < 16 → (extract .m4 blk).1.idx2.getD p 0 = getBits blk (posJ 3 81 p) (wJ 3 p)) ∧
  (∀ blk p : Nat, p < 16 → (extract .m5 blk).1.idx2.getD p 0 = getBits blk (posJ 2 97 p) (wJ 2 p)) ∧
  (∀ (m : Mode) (blk : Nat), posI m (extract m blk).1.part 15 + wI m (extract m blk).1.part 15 =
    match m with | .m4 => 81 | .m5 => 97 | _ => 128) ∧
  posJ 3 81 15 + wJ 3 15 = 128 ∧ posJ 2 97 15 + wJ 2 15 = 128

/-- 30_encoding R75, 40_mode R104: every number decodes, to a well-formed block. -/
def Obligations.EveryBlockDecodesWellFormed : Prop :=
  ∀ blk : Nat, (decodeBlk blk).wf = true

/-- Decode and encode agree, for every instruction with an encoding and every value its fields admit: no bit of an
encoding is dropped. -/
def Obligations.DecodeOfEncodeIsTheInstruction : Prop :=
  ∀ (i : Instr) (bs : List Byte), i.wf = true → encode i = some bs → decode bs = .ok i

/-- The other direction: the bytes of a block that has a mode are the encoding of the instruction they decode to, so
two different blocks never decode alike. -/
def Obligations.EncodeOfDecodeIsTheBlock : Prop :=
  ∀ (bs : List Byte) (i : Instr), decode bs = .ok i → i ≠ .decodeInv → encode i = some bs

/-- 42_partition R134, R137 items 1, 2, 3 and 4: in every partition pixel 0 is in subset 0, every subset has a pixel,
the anchors are one pixel of each subset, in order and all different, and the 64 rows of a table are distinct. -/
def Obligations.PartitionTablesAreConsistent : Prop :=
  ∀ ns : Nat, ns = 2 ∨ ns = 3 → ∀ part < 64,
    subsetOf ns part 0 = 0 ∧ (∀ p < 16, subsetOf ns part p < ns) ∧ (∀ s < ns, ∃ p < 16, subsetOf ns part p = s) ∧
    (anchors ns part).length = ns ∧ (∀ s < ns, subsetOf ns part ((anchors ns part).getD s 0) = s) ∧
    (∀ q < 64, (∀ p < 16, subsetOf ns part p = subsetOf ns q p) → part = q)

/-! Endpoints, weights, interpolation. -/

/-- 41_endpoint R118: the expansion laws for every width 5..8. -/
def Obligations.ExpansionLaws : Prop :=
  ∀ n : Nat, 5 ≤ n → n ≤ 8 →
    expand 0 n = 0 ∧ expand (2 ^ n - 1) n = 255 ∧ expand 63 6 = 255 ∧
    (∀ u v : Nat, u < v → v < 2 ^ n → expand u n < expand v n) ∧
    (∀ u : Nat, u < 2 ^ n → expand u n / 2 ^ (8 - n) = u)

/-- 41_endpoint R113: the three weight tables, and every weight the linear fraction rounded to the nearest 64th. -/
def Obligations.WeightsAreRoundedFractions : Prop :=
  (List.range 4).map (weight 2) = [0, 21, 43, 64] ∧
  (List.range 8).map (weight 3) = [0, 9, 18, 27, 37, 46, 55, 64] ∧
  (List.range 16).map (weight 4) = [0, 4, 9, 13, 17, 21, 26, 30, 34, 38, 43, 47, 51, 55, 60, 64] ∧
  ∀ b : Nat, b = 2 ∨ b = 3 ∨ b = 4 → ∀ i < 2 ^ b,
    weight b i = (2 * 64 * i + (2 ^ b - 1)) / (2 * (2 ^ b - 1))

/-- 41_endpoint R114: the interpolation as the rule writes it; it fits 8 bits and is the exact value
E0 + (E1 - E0) * w / 64 rounded to the nearest integer, halves up. -/
def Obligations.InterpolationRoundsHalvesUp : Prop :=
  ∀ e0 e1 w : Nat, e0 ≤ 255 → e1 ≤ 255 → w ≤ 64 →
    interp e0 e1 w = ((64 - w) * e0 + w * e1 + 32) >>> 6 ∧ interp e0 e1 w < 2 ^ 8 ∧
    (interp e0 e1 w : Int) = (64 * (e0 : Int) + (w : Int) * ((e1 : Int) - (e0 : Int)) + 32) / 64

/-- 41_endpoint R115, R117: the range, with no overflow, equal endpoints, the two extremes (reached by index 0 and by
the largest index of each width) and the symmetry. -/
def Obligations.InterpolationLaws : Prop :=
  ∀ e0 e1 w : Nat, e0 ≤ 255 → e1 ≤ 255 → w ≤ 64 →
    min e0 e1 ≤ interp e0 e1 w ∧ interp e0 e1 w ≤ max e0 e1 ∧ interp e0 e0 w = e0 ∧
    interp e0 e1 0 = e0 ∧ interp e0 e1 64 = e1 ∧ interp e0 e1 w = interp e1 e0 (64 - w) ∧
    (64 - w) * e0 + w * e1 + 32 ≤ 16352 ∧
    ∀ b, b = 2 ∨ b = 3 ∨ b = 4 → interp e0 e1 (weight b 0) = e0 ∧ interp e0 e1 (weight b (2 ^ b - 1)) = e1

/-! The nine block formats: each completes, with the registers and pixels of its rule, and its frame. -/

/-- What a mode 0 block leaves in the scratch registers it writes (40_mode R94). -/
def Sys2Proof.Claims.M0Writes (f : BlockFields) (sc : Scratch) : Prop :=
  ExtractorWrites .m0 3 f sc ∧ UniquePWrites 3 f sc ∧
  SubsetsAre (rowDigit (Tables.partition3.getD f.part 0)) sc ∧
  EndpointsAre 3 (uniqueEp 5 f f.red) (uniqueEp 5 f f.green) (uniqueEp 5 f f.blue) (fun _ => 255) sc ∧
  ∀ p : Fin 16,
    let sub := rowDigit (Tables.partition3.getD f.part 0) p.val
    let w := weight 3 (f.idx.getD p.val 0)
    PixelIs sc.pix[p] (lerp (uniqueEp 5 f f.red) sub w) (lerp (uniqueEp 5 f f.green) sub w)
      (lerp (uniqueEp 5 f f.blue) sub w) 255

/-- DECODE.M0 (40_mode R94). -/
def Obligations.DecodeM0Result : Prop :=
  ∀ (f : BlockFields) (s : State), f.wf .m0 = true → ∃ t, exec (.decodeM0 f) s = .next t ∧ OnlyScratchChanges s t ∧
    M0Writes f t.scratch

/-- What a mode 1 block leaves in the scratch registers it writes (40_mode R95). -/
def Sys2Proof.Claims.M1Writes (f : BlockFields) (sc : Scratch) : Prop :=
  ExtractorWrites .m1 2 f sc ∧ SharedPWrites 2 f sc ∧
  SubsetsAre (rowDigit (Tables.partition2.getD f.part 0)) sc ∧
  EndpointsAre 2 (sharedEp 7 f f.red) (sharedEp 7 f f.green) (sharedEp 7 f f.blue) (fun _ => 255) sc ∧
  ∀ p : Fin 16,
    let sub := rowDigit (Tables.partition2.getD f.part 0) p.val
    let w := weight 3 (f.idx.getD p.val 0)
    PixelIs sc.pix[p] (lerp (sharedEp 7 f f.red) sub w) (lerp (sharedEp 7 f f.green) sub w)
      (lerp (sharedEp 7 f f.blue) sub w) 255

/-- DECODE.M1 (40_mode R95). -/
def Obligations.DecodeM1Result : Prop :=
  ∀ (f : BlockFields) (s : State), f.wf .m1 = true → ∃ t, exec (.decodeM1 f) s = .next t ∧ OnlyScratchChanges s t ∧
    M1Writes f t.scratch

/-- What a mode 2 block leaves in the scratch registers it writes (40_mode R96). -/
def Sys2Proof.Claims.M2Writes (f : BlockFields) (sc : Scratch) : Prop :=
  ExtractorWrites .m2 3 f sc ∧
  SubsetsAre (rowDigit (Tables.partition3.getD f.part 0)) sc ∧
  EndpointsAre 3 (plainEp 5 f.red) (plainEp 5 f.green) (plainEp 5 f.blue) (fun _ => 255) sc ∧
  ∀ p : Fin 16,
    let sub := rowDigit (Tables.partition3.getD f.part 0) p.val
    let w := weight 2 (f.idx.getD p.val 0)
    PixelIs sc.pix[p] (lerp (plainEp 5 f.red) sub w) (lerp (plainEp 5 f.green) sub w)
      (lerp (plainEp 5 f.blue) sub w) 255

/-- DECODE.M2 (40_mode R96). -/
def Obligations.DecodeM2Result : Prop :=
  ∀ (f : BlockFields) (s : State), f.wf .m2 = true → ∃ t, exec (.decodeM2 f) s = .next t ∧ OnlyScratchChanges s t ∧
    M2Writes f t.scratch

/-- What a mode 3 block leaves in the scratch registers it writes (40_mode R97). -/
def Sys2Proof.Claims.M3Writes (f : BlockFields) (sc : Scratch) : Prop :=
  ExtractorWrites .m3 2 f sc ∧ UniquePWrites 2 f sc ∧
  SubsetsAre (rowDigit (Tables.partition2.getD f.part 0)) sc ∧
  EndpointsAre 2 (fun k => f.red.getD k 0 * 2 + f.uniqueP.getD k 0) (fun k => f.green.getD k 0 * 2 + f.uniqueP.getD k 0)
    (fun k => f.blue.getD k 0 * 2 + f.uniqueP.getD k 0) (fun _ => 255) sc ∧
  ∀ p : Fin 16,
    let sub := rowDigit (Tables.partition2.getD f.part 0) p.val
    let w := weight 2 (f.idx.getD p.val 0)
    PixelIs sc.pix[p] (lerp (uniqueEp 8 f f.red) sub w) (lerp (uniqueEp 8 f f.green) sub w)
      (lerp (uniqueEp 8 f f.blue) sub w) 255

/-- DECODE.M3 (40_mode R97): the expansion from 8 bits is the identity. -/
def Obligations.DecodeM3Result : Prop :=
  ∀ (f : BlockFields) (s : State), f.wf .m3 = true → ∃ t, exec (.decodeM3 f) s = .next t ∧ OnlyScratchChanges s t ∧
    M3Writes f t.scratch

/-- The pixel after the component rotation of 43_color R153: ROT 1, 2, 3 swap alpha with R, G, B. -/
def Sys2Proof.Claims.RotatedPixelIs (rot : Nat) (q : Rgba) (r g b a : Nat) : Prop :=
  (rot = 0 → PixelIs q r g b a) ∧ (rot = 1 → PixelIs q a g b r) ∧ (rot = 2 → PixelIs q r a b g) ∧
    (rot = 3 → PixelIs q r g a b)

/-- What a mode 4 block leaves in the scratch registers it writes (40_mode R98). -/
def Sys2Proof.Claims.M4Writes (f : BlockFields) (sc : Scratch) : Prop :=
  ExtractorWrites .m4 1 f sc ∧ AlphaWrites 1 f sc ∧ SecondaryWrites f sc ∧
  SubsetsAre (fun _ => 0) sc ∧
  EndpointsAre 1 (plainEp 5 f.red) (plainEp 5 f.green) (plainEp 5 f.blue) (plainEp 6 f.alpha) sc ∧
  ∀ p : Fin 16,
    let primary := weight 2 (f.idx.getD p.val 0)
    let secondary := weight 3 (f.idx2.getD p.val 0)
    let cw := if f.isel = 0 then primary else secondary
    let aw := if f.isel = 0 then secondary else primary
    RotatedPixelIs f.rot sc.pix[p] (lerp (plainEp 5 f.red) 0 cw) (lerp (plainEp 5 f.green) 0 cw)
      (lerp (plainEp 5 f.blue) 0 cw) (lerp (plainEp 6 f.alpha) 0 aw)

/-- DECODE.M4 (40_mode R98), with the index selector (43_color R152) and the rotation (R153). -/
def Obligations.DecodeM4Result : Prop :=
  ∀ (f : BlockFields) (s : State), f.wf .m4 = true → ∃ t, exec (.decodeM4 f) s = .next t ∧ OnlyScratchChanges s t ∧
    M4Writes f t.scratch

/-- What a mode 5 block leaves in the scratch registers it writes (40_mode R99). -/
def Sys2Proof.Claims.M5Writes (f : BlockFields) (sc : Scratch) : Prop :=
  ExtractorWrites .m5 1 f sc ∧ AlphaWrites 1 f sc ∧ SecondaryWrites f sc ∧
  SubsetsAre (fun _ => 0) sc ∧
  EndpointsAre 1 (plainEp 7 f.red) (plainEp 7 f.green) (plainEp 7 f.blue) (fun k => f.alpha.getD k 0) sc ∧
  ∀ p : Fin 16,
    let cw := weight 2 (f.idx.getD p.val 0)
    let aw := weight 2 (f.idx2.getD p.val 0)
    RotatedPixelIs f.rot sc.pix[p] (lerp (plainEp 7 f.red) 0 cw) (lerp (plainEp 7 f.green) 0 cw)
      (lerp (plainEp 7 f.blue) 0 cw) (lerp (fun k => f.alpha.getD k 0) 0 aw)

/-- DECODE.M5 (40_mode R99): alpha's expansion is the identity; two independent 2-bit streams; rotation. -/
def Obligations.DecodeM5Result : Prop :=
  ∀ (f : BlockFields) (s : State), f.wf .m5 = true → ∃ t, exec (.decodeM5 f) s = .next t ∧ OnlyScratchChanges s t ∧
    M5Writes f t.scratch

/-- What a mode 6 block leaves in the scratch registers it writes (40_mode R100). -/
def Sys2Proof.Claims.M6Writes (f : BlockFields) (sc : Scratch) : Prop :=
  ExtractorWrites .m6 1 f sc ∧ AlphaWrites 1 f sc ∧ UniquePWrites 1 f sc ∧
  SubsetsAre (fun _ => 0) sc ∧
  EndpointsAre 1 (fun k => f.red.getD k 0 * 2 + f.uniqueP.getD k 0) (fun k => f.green.getD k 0 * 2 + f.uniqueP.getD k 0)
    (fun k => f.blue.getD k 0 * 2 + f.uniqueP.getD k 0) (fun k => f.alpha.getD k 0 * 2 + f.uniqueP.getD k 0) sc ∧
  ∀ p : Fin 16,
    let w := weight 4 (f.idx.getD p.val 0)
    PixelIs sc.pix[p] (lerp (uniqueEp 8 f f.red) 0 w) (lerp (uniqueEp 8 f f.green) 0 w)
      (lerp (uniqueEp 8 f f.blue) 0 w) (lerp (uniqueEp 8 f f.alpha) 0 w)

/-- DECODE.M6 (40_mode R100): four 8-bit channels, the expansion is the identity, 4-bit indices. -/
def Obligations.DecodeM6Result : Prop :=
  ∀ (f : BlockFields) (s : State), f.wf .m6 = true → ∃ t, exec (.decodeM6 f) s = .next t ∧ OnlyScratchChanges s t ∧
    M6Writes f t.scratch

/-- What a mode 7 block leaves in the scratch registers it writes (40_mode R101). -/
def Sys2Proof.Claims.M7Writes (f : BlockFields) (sc : Scratch) : Prop :=
  ExtractorWrites .m7 2 f sc ∧ AlphaWrites 2 f sc ∧ UniquePWrites 2 f sc ∧
  SubsetsAre (rowDigit (Tables.partition2.getD f.part 0)) sc ∧
  EndpointsAre 2 (uniqueEp 6 f f.red) (uniqueEp 6 f f.green) (uniqueEp 6 f f.blue) (uniqueEp 6 f f.alpha) sc ∧
  ∀ p : Fin 16,
    let sub := rowDigit (Tables.partition2.getD f.part 0) p.val
    let w := weight 2 (f.idx.getD p.val 0)
    PixelIs sc.pix[p] (lerp (uniqueEp 6 f f.red) sub w) (lerp (uniqueEp 6 f f.green) sub w)
      (lerp (uniqueEp 6 f f.blue) sub w) (lerp (uniqueEp 6 f f.alpha) sub w)

/-- DECODE.M7 (40_mode R101). -/
def Obligations.DecodeM7Result : Prop :=
  ∀ (f : BlockFields) (s : State), f.wf .m7 = true → ∃ t, exec (.decodeM7 f) s = .next t ∧ OnlyScratchChanges s t ∧
    M7Writes f t.scratch

/-- 40_mode R106: a mode-less block makes MODE INVALID and every pixel (0,0,0,0); it raises nothing and touches
nothing else. Every block whose byte 0 is 0 is that instruction, whatever its other bits. -/
def Obligations.DecodeInvResult : Prop :=
  (∀ s : State, ∃ t, exec .decodeInv s = .next t ∧ OnlyScratchChanges s t ∧ t.scratch.mode = .invalid ∧
    ∀ p : Fin 16, PixelIs t.scratch.pix[p] 0 0 0 0) ∧
  ∀ blk : Nat, blk % 256 = 0 → (decodeBlk blk).instr = .decodeInv

/-- 40_mode R103, 10_state R21: the pixels of a block do not depend on what the scratch registers held, so no value
left by another block is ever read. -/
def Obligations.PixelsDependOnTheBlockAlone : Prop :=
  ∀ (b : Block) (sc sc' : Scratch), (blockRun b sc).pix = (blockRun b sc').pix

/-- 43_color R157: where the two endpoints of a pixel's subset are equal the pixel is that colour, rotated, whatever its
indices are, in every mode and for every pixel; it is that colour itself where ROT = 0, as in every mode but 4 and 5;
and its alpha is 255 in modes 0 to 3. -/
def Obligations.EqualEndpointsGiveAConstantSubset : Prop :=
  ∀ (m : Mode) (f : BlockFields) (sc : Scratch) (p : Fin 16), f.wf m = true →
    let t := blockRun (.mode m f) sc
    ∀ s : Fin 3, t.sub[p].toNat = s.val → t.ep[s][(0 : Fin 2)] = t.ep[s][(1 : Fin 2)] →
      t.pix[p] = rotate f.rot t.ep[s][(0 : Fin 2)] ∧ (m ≠ .m4 ∧ m ≠ .m5 → f.rot = 0) ∧
      (f.rot = 0 → t.pix[p] = t.ep[s][(0 : Fin 2)]) ∧
      (m = .m0 ∨ m = .m1 ∨ m = .m2 ∨ m = .m3 → t.pix[p].a.toNat = 255)

/-! The host transactions. -/

/-- 44_gather R170: DECODE_BLOCK of 16 bytes completes in one step in every state, BUSY or IDLE: the 16 pixels go to
the host, the BDU scratch holds them, and no memory and no GSU register changes. A mode-less block gives 16 times (0,0,0,0). An
operand of another length is refused. -/
def Obligations.DecodeBlockResult : Prop :=
  (∀ (bs : List Byte) (s : State), bs.length = 16 → ∃ t, exec (.decodeBlock bs) s = .next t ∧
    t.replies = .pixels (decodeBlockPixels (leNat bs)) :: s.replies ∧ t.scratch.pix = decodeBlockPixels (leNat bs) ∧
    t.gsu = s.gsu ∧ (∀ a, t.mem.read a = s.mem.read a) ∧ t.mem = s.mem ∧ t.queue = s.queue ∧ t.turn = s.turn ∧
    (bs.getD 0 0 = 0 → ∀ p : Fin 16, PixelIs t.scratch.pix[p] 0 0 0 0)) ∧
  ∀ (bs : List Byte) (s : State), bs.length ≠ 16 → exec (.decodeBlock bs) s = .refused .blockNotSixteenBytes

/-- 44_gather R171, R173, R174, 10_state R25, R27: a DECODE_TEXTURE issued while IDLE, with u32 dimensions, disjoint used
ranges and both lengths long enough, makes the GSU BUSY with its operands and every block of the grid pending, once each;
memory and the scratch registers stay. That GSU.status stays as it was is the model's reading (log 15), not a rule. -/
def Obligations.DecodeTextureIssues : Prop :=
  ∀ (c : TextureCmd) (s : State), s.gsu.state = .idle → c.width < 2 ^ 32 → c.height < 2 ^ 32 →
    buffersOverlap c = false → (c.width + 3) / 4 * ((c.height + 3) / 4) * 16 ≤ c.inLen →
    c.width * c.height * 4 ≤ c.outLen →
    ∃ t, exec (.decodeTexture c) s = .next t ∧ t.gsu.state = .busy ∧ t.gsu.cmd = some c ∧ t.gsu.status = s.gsu.status ∧
      (∀ col row, (col, row) ∈ t.gsu.pending ↔ col < (c.width + 3) / 4 ∧ row < (c.height + 3) / 4) ∧
      t.gsu.pending.Nodup ∧ t.gsu.pending.length = (c.width + 3) / 4 * ((c.height + 3) / 4) ∧
      t.scratch = s.scratch ∧ (∀ a, t.mem.read a = s.mem.read a) ∧ t.mem = s.mem ∧ t.queue = s.queue ∧
      t.replies = s.replies ∧ t.turn = s.turn ∧ t.draws = s.draws

/-- 60_exceptions R191, R192, R196, 44_gather R173, 70_reset R217: a length that is too short ends the transaction in
the issue step, InputTooShort (code 1) first, OutputTooShort (code 2) when the input check passed: the status is set,
the GSU stays IDLE, and nothing else changes, no byte of memory among it. That no command is left is the model's reading
of 10_state R26 (log 16), not a rule. -/
def Obligations.ShortLengthsAreReportedAtIssue : Prop :=
  ∀ (c : TextureCmd) (s : State), s.gsu.state = .idle → c.width < 2 ^ 32 → c.height < 2 ^ 32 →
    buffersOverlap c = false →
    ∀ (e : Status) (code : Nat),
      (c.inLen < (c.width + 3) / 4 * ((c.height + 3) / 4) * 16 ∧ e = .inputTooShort ∧ code = 1 ∨
       (c.width + 3) / 4 * ((c.height + 3) / 4) * 16 ≤ c.inLen ∧ c.outLen < c.width * c.height * 4 ∧
         e = .outputTooShort ∧ code = 2) →
      ∃ t, exec (.decodeTexture c) s = .next t ∧ t.gsu.state = .idle ∧ t.gsu.status = e ∧
        t.gsu.status.code = some code ∧ t.gsu.cmd = none ∧ t.gsu.pending = [] ∧ t.scratch = s.scratch ∧
        (∀ a, t.mem.read a = s.mem.read a) ∧ t.mem = s.mem ∧ t.queue = s.queue ∧ t.replies = s.replies ∧
        t.turn = s.turn ∧ t.draws = s.draws

/-- 44_gather R181: what a DECODE_TEXTURE is refused for: issued while BUSY, a dimension outside u32, used ranges that
share a byte address. That a used range reaches to NEED_IN or NEED_OUT even past a declared length that is shorter, and
that the refusals are looked for before the lengths, are the model's choices (log 30, log 13). -/
def Obligations.DecodeTextureRefusals : Prop :=
  ∀ (c : TextureCmd) (s : State),
    (s.gsu.state = .busy → exec (.decodeTexture c) s = .refused .textureWhileBusy) ∧
    (s.gsu.state = .idle → 2 ^ 32 ≤ c.width ∨ 2 ^ 32 ≤ c.height →
      exec (.decodeTexture c) s = .refused .dimensionNotU32) ∧
    (s.gsu.state = .idle → c.width < 2 ^ 32 → c.height < 2 ^ 32 →
      (∃ a, (c.inBase ≤ a ∧ a < c.inBase + (c.width + 3) / 4 * ((c.height + 3) / 4) * 16) ∧
        c.outBase ≤ a ∧ a < c.outBase + c.width * c.height * 4) →
      exec (.decodeTexture c) s = .refused .buffersOverlap)

/-- 44_gather R179: with WIDTH = 0 or HEIGHT = 0 nothing is needed, so for any lengths, declared buffers and memory the
issue step finds no error and no block, and the next GSU step completes with OK and every byte of memory as it was. -/
def Obligations.ZeroSizeTextureCompletes : Prop :=
  ∀ (c : TextureCmd) (s : State), c.width = 0 ∨ c.height = 0 → c.dimsFit = true → s.gsu.state = .idle →
    needIn c = 0 ∧ needOut c = 0 ∧
    ∃ t, exec (.decodeTexture c) s = .next t ∧ t.gsu.state = .busy ∧ t.gsu.pending = [] ∧ t.mem = s.mem ∧
      (GsuMoves t → ∃ u, step t = .next u ∧ u.gsu.state = .idle ∧ u.gsu.status = .ok ∧ u.mem = s.mem ∧
        ∀ a, u.mem.read a = s.mem.read a)

/-- 44_gather R175, R180, R185, 20_memory R46: a block step of a legal command reads the 16 bytes of its block, decodes
them, and stores each of its 16 pixels that lies inside the image, R, G, B, A from the lowest address; every other
byte reads as before, and no GSU register changes. -/
def Obligations.BlockStepScattersTheClippedBlock : Prop :=
  ∀ (c : TextureCmd) (col row : Nat) (s : State), CommandLegal c → col < gridWidth c → row < gridHeight c →
    Memory.wf s.mem →
    ∃ t, blockStep c col row s = .next t ∧
      let px := decodeBlockPixels (leNat (s.mem.readBytes (c.inBase + (row * gridWidth c + col) * 16) 16))
      t.scratch.pix = px ∧
      (∀ p : Fin 16, col * 4 + p.val % 4 < c.width → row * 4 + p.val / 4 < c.height →
        let a := c.outBase + ((row * 4 + p.val / 4) * c.width + (col * 4 + p.val % 4)) * 4
        t.mem.read a = px[p].r ∧ t.mem.read (a + 1) = px[p].g ∧ t.mem.read (a + 2) = px[p].b ∧
          t.mem.read (a + 3) = px[p].a) ∧
      (∀ x, (∀ p : Fin 16, col * 4 + p.val % 4 < c.width → row * 4 + p.val / 4 < c.height →
          let a := c.outBase + ((row * 4 + p.val / 4) * c.width + (col * 4 + p.val % 4)) * 4
          ¬ (a ≤ x ∧ x < a + 4)) →
        t.mem.read x = s.mem.read x) ∧
      t.gsu = s.gsu ∧ t.queue = s.queue ∧ t.replies = s.replies ∧ t.turn = s.turn

/-! The machine's step. -/

/-- A step runs the decoded instruction: when the host moves and its action is a DECODE_BLOCK whose bytes decode to the
instruction i, the step is exec of i with the action taken off the script, then the 16 pixels given to the host, then
the schedule drawn anew (log 6, log 7). A DECODE_TEXTURE is its own instruction. -/
def Obligations.StepRunsTheDecodedInstruction : Prop :=
  (∀ (s u : State) (bs : List Byte) (rest : List HostAction) (i : Instr),
    s.queue = .decodeBlock bs :: rest → s.gsu.state = .idle ∨ s.turn.hostFirst = true → decode bs = .ok i →
    exec i s.popAction = .next u → step s = .next (u.reply (.pixels u.scratch.pix)).redraw) ∧
  (∀ (s u : State) (c : TextureCmd) (rest : List HostAction),
    s.queue = .decodeTexture c :: rest → s.gsu.state = .idle ∨ s.turn.hostFirst = true →
    exec (.decodeTexture c) s.popAction = .next u → step s = .next u.redraw)

/-- 10_state R31, 70_reset R210: the values the spec gives for reset. -/
def Obligations.ResetLeavesTheGsuIdle : Prop :=
  State.reset.gsu.state = .idle ∧ State.reset.gsu.status = .none ∧ State.reset.gsu.cmd = none ∧
    State.reset.gsu.pending = []

/-- The invariant of Safety.lean holds at reset. -/
def Obligations.ResetMeetsTheInvariant : Prop := Inv State.reset

/-- Every step keeps the invariant of Safety.lean: canonical memory; the cursor within 0..128; IDLE with no command, or
BUSY with a legal one and a set of its blocks pending; the input unchanged while BUSY, and each byte of the output
its old value while its block is pending and its final one after. -/
def Obligations.StepKeepsTheInvariant : Prop :=
  ∀ s t : State, Inv s → step s = .next t → Inv t

/-- 20_memory R44: "No access is ever out of bounds", and a BUSY GSU has its command: in a state that meets the
invariant no step faults. -/
def Obligations.NoStepFaults : Prop :=
  ∀ (s : State) (e : Fault), Inv s → step s ≠ .fault e

/-- 44_gather R181, 60_exceptions R190: in a state that meets the invariant a step is safe unless the host moves and
breaks a duty with its next action. -/
def Obligations.StepsAreSafeWhileTheHostKeepsItsDuties : Prop :=
  ∀ s : State, Inv s → (∀ a rest, HostMoves s → s.queue = a :: rest → HostDuty s a) → SafeStep s

/-- 44_gather R175, R176: while blocks are pending, a step of the GSU takes at least one and at most LANES of them out
of GSU.pending and stays BUSY with the same command and status; no byte outside OUT[0 .. NEED_OUT) changes, and the
host's script and replies stay. -/
def Obligations.GsuStepTakesPendingBlocks : Prop :=
  ∀ s : State, Inv s → GsuMoves s → s.gsu.pending ≠ [] →
    ∃ t, step s = .next t ∧ t.gsu.state = .busy ∧ t.gsu.cmd = s.gsu.cmd ∧ t.gsu.status = s.gsu.status ∧
      t.gsu.pending.Sublist s.gsu.pending ∧ t.gsu.pending.length < s.gsu.pending.length ∧
      s.gsu.pending.length ≤ t.gsu.pending.length + Config.lanes ∧ t.queue = s.queue ∧ t.replies = s.replies ∧
      ∀ c, s.gsu.cmd = some c → ∀ a, outUsed c a = false → t.mem.read a = s.mem.read a

/-- 44_gather R177, 10_state R26: when no block is pending, the GSU's step sets status OK and state IDLE, the command
record is gone, and memory, the scratch registers, the script and the replies stay. -/
def Obligations.GsuStepCompletes : Prop :=
  ∀ (s : State) (c : TextureCmd), GsuMoves s → s.gsu.cmd = some c → s.gsu.pending = [] →
    ∃ t, step s = .next t ∧ t.gsu.state = .idle ∧ t.gsu.status = .ok ∧ t.gsu.cmd = none ∧ t.gsu.pending = [] ∧
      t.mem = s.mem ∧ (∀ a, t.mem.read a = s.mem.read a) ∧ t.scratch = s.scratch ∧ t.queue = s.queue ∧
      t.replies = s.replies

/-- 44_gather R178: IDLE to BUSY only at the issue of a DECODE_TEXTURE; BUSY to IDLE only at completion, with status OK
and nothing pending, or at a reset of the hardware. (An error of the issue step passes through no BUSY state that a
host could see, R173.) -/
def Obligations.GsuStateTransitions : Prop :=
  ∀ s t : State, step s = .next t →
    (s.gsu.state = .idle → t.gsu.state = .busy → ∃ c rest, s.queue = .decodeTexture c :: rest) ∧
    (s.gsu.state = .busy → t.gsu.state = .idle →
      s.gsu.pending = [] ∧ t.gsu.status = .ok ∨ ∃ rest, s.queue = .reset :: rest)

/-- 10_state R25: GSU.status changes only when a DECODE_TEXTURE ends, at completion with OK or in its issue step with a
length error, or at a reset of the hardware, which makes it NONE. -/
def Obligations.StatusIsWrittenOnlyAtTheEnd : Prop :=
  ∀ s t : State, step s = .next t → t.gsu.status ≠ s.gsu.status →
    (s.gsu.state = .busy ∧ s.gsu.pending = [] ∧ t.gsu.status = .ok ∧ t.gsu.state = .idle) ∨
    (∃ c rest, s.queue = .decodeTexture c :: rest ∧ lengthError c = some t.gsu.status ∧ t.gsu.state = .idle) ∨
    (∃ rest, s.queue = .reset :: rest ∧ t.gsu.status = .none ∧ t.gsu.state = .idle)

/-- 10_state R26: the operand record is "read-only to the GSU while GSU.state = BUSY": no step that leaves the GSU BUSY
changes it, whoever moves. -/
def Obligations.CommandIsFixedWhileBusy : Prop :=
  ∀ s t : State, step s = .next t → s.gsu.state = .busy → t.gsu.state = .busy → t.gsu.cmd = s.gsu.cmd

/-- 10_state R29, 20_memory R42, R44: a byte of memory changes only where the output of the running transaction lies, or
where the host itself writes. -/
def Obligations.MemoryChangesOnlyInTheOutputOrByTheHost : Prop :=
  ∀ (s t : State) (a : Nat), Inv s → step s = .next t → t.mem.read a ≠ s.mem.read a →
    (∃ c, s.gsu.state = .busy ∧ s.gsu.cmd = some c ∧ c.outBase ≤ a ∧ a < c.outBase + c.width * c.height * 4) ∨
    (∃ addr bs rest, s.queue = .write addr bs :: rest ∧ addr ≤ a ∧ a < addr + bs.length)

/-- 60_exceptions R205, 70_reset R211: while IDLE, with nothing for the host to do, a step changes nothing. -/
def Obligations.IdleMachineKeepsItsState : Prop :=
  ∀ s : State, s.gsu.state = .idle → s.queue = [] → step s = .next s

/-! The host's other actions. -/

/-- 20_memory R47, R49, R53: a host READ gives one byte for each offset; outside the output of a running transaction,
and everywhere while IDLE, it is the byte in memory; nothing else changes. -/
def Obligations.HostReadGivesTheBytes : Prop :=
  ∀ (s : State) (base lo hi : Nat) (rest : List HostAction), HostMoves s → s.queue = .read base lo hi :: rest →
    ∃ t bs, step s = .next t ∧ t.replies = .bytes bs :: s.replies ∧ bs.length = hi - lo ∧
      (∀ k < hi - lo,
        s.gsu.state = .idle ∨ (∃ c, s.gsu.cmd = some c ∧
          ¬ (c.outBase ≤ base + lo + k ∧ base + lo + k < c.outBase + needOut c)) →
        bs.getD k 0 = s.mem.read (base + lo + k)) ∧
      t.mem = s.mem ∧ t.gsu = s.gsu ∧ t.scratch = s.scratch ∧ t.queue = rest

/-- 70_reset R215, 20_memory R57: a host write that touches no used range of a running transaction writes its bytes and
nothing else; one that touches IN[0 .. NEED_IN) or OUT[0 .. NEED_OUT) while BUSY is refused. -/
def Obligations.HostWritesOutsideTheUsedRanges : Prop :=
  ∀ (s : State) (addr : Nat) (bs : List Byte) (rest : List HostAction), Memory.wf s.mem → HostMoves s →
    s.queue = .write addr bs :: rest →
    ((∀ k < bs.length, s.claimed (addr + k) = false) →
      ∃ t, step s = .next t ∧
        (∀ a, t.mem.read a = if addr ≤ a ∧ a < addr + bs.length then bs.getD (a - addr) 0 else s.mem.read a) ∧
        t.gsu = s.gsu ∧ t.scratch = s.scratch ∧ t.replies = s.replies ∧ t.queue = rest) ∧
    (∀ c a, s.gsu.state = .busy → s.gsu.cmd = some c → inUsed c a = true ∨ outUsed c a = true →
      addr ≤ a → a < addr + bs.length → step s = .refused .hostWriteWhileBusy)

/-- 70_reset R210: a reset of the hardware makes the GSU IDLE with status NONE, no command and nothing pending; while
IDLE it writes no memory; while BUSY it abandons the transaction, and each byte of OUT[0 .. NEED_OUT) holds its old
value or the one the transaction would have written, every other byte its value. -/
def Obligations.ResetAbandonsTheTransaction : Prop :=
  ∀ (s : State) (rest : List HostAction), Inv s → HostMoves s → s.queue = .reset :: rest →
    ∃ t, step s = .next t ∧ t.gsu = Gsu.reset ∧ t.queue = rest ∧ t.replies = s.replies ∧
      (s.gsu.state = .idle → t.mem = s.mem) ∧
      ∀ c, s.gsu.state = .busy → s.gsu.cmd = some c →
        (∀ a, outUsed c a = false → t.mem.read a = s.mem.read a) ∧
        ∀ off < needOut c, t.mem.read (c.outBase + off) = s.gsu.before.read (c.outBase + off) ∨
          t.mem.read (c.outBase + off) = imageByte c s.gsu.before off

/-- 60_exceptions R195, 10_state R25, R27: a poll gives the host GSU.state and GSU.status; a WAIT is passed while IDLE and
stays at the head of the script while BUSY. Neither a poll nor the passing of a WAIT changes a register or memory. -/
def Obligations.HostSeesTheEndByPolling : Prop :=
  (∀ (s : State) (rest : List HostAction), HostMoves s → s.queue = .poll :: rest →
    ∃ t, step s = .next t ∧ t.replies = .status s.gsu.state s.gsu.status :: s.replies ∧ t.gsu = s.gsu ∧ t.mem = s.mem ∧
      t.scratch = s.scratch ∧ t.queue = rest) ∧
  (∀ (s : State) (rest : List HostAction), s.gsu.state = .idle → s.queue = .wait :: rest →
    ∃ t, step s = .next t ∧ t.replies = s.replies ∧ t.gsu = s.gsu ∧ t.mem = s.mem ∧ t.scratch = s.scratch ∧
      t.queue = rest) ∧
  (∀ (s t : State) (rest : List HostAction), s.gsu.state = .busy → s.queue = .wait :: rest → step s = .next t →
    t.queue = .wait :: rest ∧ t.replies = s.replies)

/-! Whole transactions. -/

/-- 44_gather R172, R177, 20_memory R53, 70_reset R219: from a state that meets the invariant, with the GSU IDLE and a
host that issues a legal DECODE_TEXTURE and waits, the machine comes, whatever the schedule, within 1 + WB*HB + 1 steps
to IDLE with status OK, every byte of OUT[0 .. NEED_OUT) its final value and every other byte of memory unchanged. -/
def Obligations.TextureEndsOkWithItsImage : Prop :=
  ∀ (s : State) (c : TextureCmd) (rest : List HostAction), Inv s → s.gsu.state = .idle → CommandLegal c →
    s.queue = .decodeTexture c :: .wait :: rest →
    ∃ k t, k ≤ 1 + gridWidth c * gridHeight c + 1 ∧ core.run k s = .next t ∧ t.gsu.state = .idle ∧
      t.gsu.status = .ok ∧ t.queue = .wait :: rest ∧ t.replies = s.replies ∧
      ∀ a, t.mem.read a = if outUsed c a then imageByte c s.mem (a - c.outBase) else s.mem.read a

/-- 44_gather R176, 20_memory R53: "Every order gives the same final OUT". Two runs of a DECODE_TEXTURE from states that
agree in the GSU registers, memory and script, whatever their schedules and however long each takes, end with the same
memory and status. -/
def Obligations.EveryScheduleGivesTheSameMemory : Prop :=
  ∀ (s s' t t' : State) (c : TextureCmd) (rest : List HostAction) (k k' : Nat), Inv s → s.gsu.state = .idle →
    s.queue = .decodeTexture c :: .wait :: rest →
    (s'.gsu = s.gsu ∧ s'.mem = s.mem ∧ s'.queue = s.queue) → Inv s' →
    core.run k s = .next t → core.run k' s' = .next t' →
    t.gsu.state = .idle → t'.gsu.state = .idle → t.queue = .wait :: rest → t'.queue = .wait :: rest →
    t.mem = t'.mem ∧ t.gsu.status = t'.gsu.status

/-- 20_memory R41, R49, 40_mode R103: the output depends on IN[0 .. NEED_IN) alone. Two states whose memories agree there
and may differ everywhere else, whatever their schedules and scratch registers, each come from the same legal
DECODE_TEXTURE to the end of that transaction (IDLE, status OK, the host at its WAIT) with the same
OUT[0 .. NEED_OUT). -/
def Obligations.OutputDependsOnTheUsedInputAlone : Prop :=
  ∀ (s s' : State) (c : TextureCmd) (rest rest' : List HostAction), Inv s → Inv s' → s.gsu.state = .idle →
    s'.gsu.state = .idle → CommandLegal c → s.queue = .decodeTexture c :: .wait :: rest →
    s'.queue = .decodeTexture c :: .wait :: rest' → (∀ a, inUsed c a = true → s.mem.read a = s'.mem.read a) →
    ∃ k k' t t', core.run k s = .next t ∧ core.run k' s' = .next t' ∧
      t.queue = .wait :: rest ∧ t'.queue = .wait :: rest' ∧ t.gsu.state = .idle ∧ t'.gsu.state = .idle ∧
      t.gsu.status = .ok ∧ t'.gsu.status = .ok ∧
      ∀ off < needOut c, t.mem.read (c.outBase + off) = t'.mem.read (c.outBase + off)
end

