-- ==== Sys2Proof/Laws/Bits.lean ====
section
/-! SUPPORT. The laws of field reading and packing: what the cursor does, reading back packed fields, packing what
was read, and the 128-bit sum of every mode's widths (30_encoding R62). -/

namespace Sys2Proof

theorem getBits_lt (blk lo w : Nat) : getBits blk lo w < 2 ^ w := Nat.mod_lt _ (by positivity)

theorem getBits_zero (blk lo : Nat) : getBits blk lo 0 = 0 := by simp [getBits, Nat.mod_one]

theorem readMany_snd (blk : Nat) (ws : List Nat) (cur : Nat) : (readMany blk ws cur).2 = cur + ws.sum := by
  induction ws generalizing cur with
  | nil => simp [readMany]
  | cons w ws ih => simp [readMany, ih, Nat.add_assoc]

theorem readMany_append (blk : Nat) (ws ws' : List Nat) (cur : Nat) :
    (readMany blk (ws ++ ws') cur).1 = (readMany blk ws cur).1 ++ (readMany blk ws' (cur + ws.sum)).1 := by
  induction ws generalizing cur with
  | nil => simp [readMany]
  | cons w ws ih => simp [readMany, ih, Nat.add_assoc]

theorem length_readMany (blk : Nat) (ws : List Nat) (cur : Nat) : (readMany blk ws cur).1.length = ws.length := by
  induction ws generalizing cur with
  | nil => rfl
  | cons w ws ih => simp [readMany, ih]

/-- The value read for width number `i` stands after the widths before it. -/
theorem getD_readMany (blk : Nat) (ws : List Nat) (cur i : Nat) (h : i < ws.length) :
    (readMany blk ws cur).1.getD i 0 = getBits blk (cur + (ws.take i).sum) (ws.getD i 0) := by
  induction ws generalizing cur i with
  | nil => simp at h
  | cons w ws ih =>
    cases i with
    | zero => simp [readMany]
    | succ i =>
      rw [readMany, List.getD_cons_succ, ih (cur + w) i (by simpa using h)]
      simp [Nat.add_assoc]

/-- What is read fits its widths. -/
theorem fitsAll_readMany (blk : Nat) (ws : List Nat) (cur : Nat) : fitsAll ws (readMany blk ws cur).1 = true := by
  induction ws generalizing cur with
  | nil => rfl
  | cons w ws ih => simp [readMany, fitsAll, ih, getBits_lt]

theorem fitsAll_length {ws vs : List Nat} (h : fitsAll ws vs = true) : ws.length = vs.length := by
  induction ws generalizing vs with
  | nil => cases vs <;> simp_all [fitsAll]
  | cons w ws ih =>
    cases vs with
    | nil => simp [fitsAll] at h
    | cons v vs => simp only [fitsAll, Bool.and_eq_true] at h; simp [ih h.2]

theorem fitsAll_append {ws ws' vs vs' : List Nat} (h : fitsAll ws vs = true) (h' : fitsAll ws' vs' = true) :
    fitsAll (ws ++ ws') (vs ++ vs') = true := by
  induction ws generalizing vs with
  | nil => cases vs <;> simp_all [fitsAll]
  | cons w ws ih =>
    cases vs with
    | nil => simp [fitsAll] at h
    | cons v vs =>
      simp only [fitsAll, Bool.and_eq_true] at h
      simp [fitsAll, h.1, ih h.2]

/-- Every value that fits lies below its width's power. -/
theorem getD_lt_of_fitsAll {ws vs : List Nat} (h : fitsAll ws vs = true) (i : Nat) :
    vs.getD i 0 < 2 ^ ws.getD i 0 := by
  induction ws generalizing vs i with
  | nil => cases vs <;> simp_all [fitsAll]
  | cons w ws ih =>
    cases vs with
    | nil => simp [fitsAll] at h
    | cons v vs =>
      simp only [fitsAll, Bool.and_eq_true, decide_eq_true_eq] at h
      cases i with
      | zero => simpa using h.1
      | succ i => simpa using ih h.2 i

theorem pack_lt {ws vs : List Nat} (h : fitsAll ws vs = true) : pack ws vs < 2 ^ ws.sum := by
  induction ws generalizing vs with
  | nil => cases vs <;> simp_all [fitsAll, pack]
  | cons w ws ih =>
    cases vs with
    | nil => simp [fitsAll] at h
    | cons v vs =>
      simp only [fitsAll, Bool.and_eq_true, decide_eq_true_eq] at h
      have := ih h.2
      rw [pack, List.sum_cons, Nat.pow_add]
      calc v + 2 ^ w * pack ws vs < 2 ^ w + 2 ^ w * pack ws vs := by omega
        _ = 2 ^ w * (pack ws vs + 1) := by ring
        _ ≤ 2 ^ w * 2 ^ ws.sum := Nat.mul_le_mul_left _ this

/-- Reading packed fields gives them back. -/
theorem readMany_pack {ws vs : List Nat} (h : fitsAll ws vs = true) {blk cur : Nat}
    (hb : blk / 2 ^ cur = pack ws vs) : (readMany blk ws cur).1 = vs := by
  induction ws generalizing vs cur with
  | nil => cases vs <;> simp_all [fitsAll, readMany]
  | cons w ws ih =>
    cases vs with
    | nil => simp [fitsAll] at h
    | cons v vs =>
      simp only [fitsAll, Bool.and_eq_true, decide_eq_true_eq] at h
      rw [pack] at hb
      have hv : getBits blk cur w = v := by
        rw [getBits, hb, Nat.add_mul_mod_self_left, Nat.mod_eq_of_lt h.1]
      have hr : blk / 2 ^ (cur + w) = pack ws vs := by
        rw [Nat.pow_add, ← Nat.div_div_eq_div_mul, hb, Nat.add_mul_div_left _ _ (by positivity),
          Nat.div_eq_of_lt h.1, Nat.zero_add]
      rw [readMany, hv, ih h.2 hr]

/-- Packing what was read gives the bits read. -/
theorem pack_readMany (blk : Nat) (ws : List Nat) (cur : Nat) :
    pack ws (readMany blk ws cur).1 = blk / 2 ^ cur % 2 ^ ws.sum := by
  induction ws generalizing cur with
  | nil => simp [pack, Nat.mod_one]
  | cons w ws ih =>
    rw [readMany, pack, ih, List.sum_cons, getBits, Nat.pow_add, Nat.pow_add, ← Nat.div_div_eq_div_mul]
    exact (Nat.mod_mul).symm

/-- The fields of a block of mode `m`, one after another, are what the cursor reads over all their widths
(40_mode R92). -/
theorem extract_values (m : Mode) (blk : Nat) :
    (extract m blk).1.values = (readMany blk (fieldWidths m (extract m blk).1.part) (m.number + 1)).1 := by
  simp only [extract, BlockFields.values, fieldWidths, readMany_append, readMany_snd, List.sum_append, readMany,
    List.append_assoc, List.cons_append, List.nil_append, Nat.add_assoc]

theorem extract_snd (m : Mode) (blk : Nat) :
    (extract m blk).2 = m.number + 1 + (fieldWidths m (extract m blk).1.part).sum := by
  simp only [extract, fieldWidths, readMany_snd, List.sum_append, List.sum_cons, List.sum_nil, Nat.add_zero]
  omega

/-- The widths of every mode and partition sum to 128 bits (30_encoding R62). -/
theorem fieldWidths_sum (m : Mode) (part : Nat) (h : part < 2 ^ (Tables.modeParams m).pb) :
    m.number + 1 + (fieldWidths m part).sum = 128 := by
  have key : ∀ m : Mode, ∀ part < 2 ^ (Tables.modeParams m).pb, m.number + 1 + (fieldWidths m part).sum = 128 := by
    intro m; cases m <;> decide
  exact key m part h

theorem extract_part_lt (m : Mode) (blk : Nat) : (extract m blk).1.part < 2 ^ (Tables.modeParams m).pb :=
  getBits_lt _ _ _

/-- The fields the decoder reads are well formed. -/
theorem extract_wf (m : Mode) (blk : Nat) : (extract m blk).1.wf m = true := by
  simp [BlockFields.wf, BlockFields.partFits, BlockFields.rotFits, BlockFields.iselFits, BlockFields.colourFits,
    BlockFields.alphaFits, BlockFields.uniquePFits, BlockFields.sharedPFits, BlockFields.idxFits,
    BlockFields.idx2Fits, extract, fitsAll_readMany, getBits_lt]

/-- Well-formed fields fit the widths of their mode, in stream order. -/
theorem fitsAll_values {m : Mode} {f : BlockFields} (h : f.wf m = true) :
    fitsAll (fieldWidths m f.part) f.values = true := by
  simp only [BlockFields.wf, Bool.and_eq_true, BlockFields.partFits, BlockFields.rotFits, BlockFields.iselFits,
    BlockFields.colourFits, BlockFields.alphaFits, BlockFields.uniquePFits, BlockFields.sharedPFits,
    BlockFields.idxFits, BlockFields.idx2Fits] at h
  obtain ⟨⟨⟨⟨⟨⟨⟨⟨hp, hr⟩, hi⟩, ⟨hred, hgreen⟩, hblue⟩, ha⟩, hu⟩, hs⟩, hx⟩, hx2⟩ := h
  refine fitsAll_append (fitsAll_append (fitsAll_append (fitsAll_append (fitsAll_append (fitsAll_append
    (fitsAll_append (fitsAll_append ?_ hred) hgreen) hblue) ha) hu) hs) hx) hx2
  simp [fitsAll] at hp hr hi ⊢
  exact ⟨hp, hr, hi⟩

/-- Below the lowest set bit every bit is clear: with bits `0..k-1` clear, bit `k` is either the block's selector bit or
clear as well (40_mode R90). -/
theorem low_bit {blk k : Nat} (z : blk % 2 ^ k = 0) :
    bitSet blk k = true ∧ blk % 2 ^ (k + 1) = 2 ^ k ∨ bitSet blk k = false ∧ blk % 2 ^ (k + 1) = 0 := by
  have split : blk % 2 ^ (k + 1) = 2 ^ k * (blk / 2 ^ k % 2) := by rw [Nat.mod_pow_succ, z, Nat.zero_add]
  rcases Nat.mod_two_eq_zero_or_one (blk / 2 ^ k) with h | h <;> simp [split, bitSet, getBits, h]

/-- What mode detection answers (40_mode R90): a mode with its selector bits, or none where byte 0 is 0. -/
theorem modeDetect_cases (blk : Nat) :
    (∃ m : Mode, modeDetect blk = some m ∧ blk % 2 ^ (m.number + 1) = 2 ^ m.number) ∨
      modeDetect blk = none ∧ blk % 256 = 0 := by
  rcases low_bit (k := 0) (Nat.mod_one blk) with ⟨b0, s⟩ | ⟨b0, z⟩
  · exact .inl ⟨.m0, by simp [modeDetect, b0], s⟩
  rcases low_bit z with ⟨b1, s⟩ | ⟨b1, z⟩
  · exact .inl ⟨.m1, by simp_all [modeDetect], s⟩
  rcases low_bit z with ⟨b2, s⟩ | ⟨b2, z⟩
  · exact .inl ⟨.m2, by simp_all [modeDetect], s⟩
  rcases low_bit z with ⟨b3, s⟩ | ⟨b3, z⟩
  · exact .inl ⟨.m3, by simp_all [modeDetect], s⟩
  rcases low_bit z with ⟨b4, s⟩ | ⟨b4, z⟩
  · exact .inl ⟨.m4, by simp_all [modeDetect], s⟩
  rcases low_bit z with ⟨b5, s⟩ | ⟨b5, z⟩
  · exact .inl ⟨.m5, by simp_all [modeDetect], s⟩
  rcases low_bit z with ⟨b6, s⟩ | ⟨b6, z⟩
  · exact .inl ⟨.m6, by simp_all [modeDetect], s⟩
  rcases low_bit z with ⟨b7, s⟩ | ⟨b7, z⟩
  · exact .inl ⟨.m7, by simp_all [modeDetect], s⟩
  exact .inr ⟨by simp_all [modeDetect], z⟩

/-- No block has the selector bits of two modes (30_encoding R76). -/
theorem selector_unique {blk n k : Nat} (h : blk % 2 ^ (n + 1) = 2 ^ n) (h' : blk % 2 ^ (k + 1) = 2 ^ k) : n ≤ k := by
  by_contra hlt
  have low := Nat.mod_mod_of_dvd blk (Nat.pow_dvd_pow 2 (show k + 1 ≤ n + 1 by omega))
  rw [h, h', Nat.mod_eq_zero_of_dvd (Nat.pow_dvd_pow 2 (show k + 1 ≤ n by omega))] at low
  exact absurd low.symm (by positivity)

theorem Mode.number_injective {m m' : Mode} (h : m.number = m'.number) : m = m' := by
  cases m <;> cases m' <;> first | rfl | cases h

/-- A mode is found from its selector bits (40_mode R90). -/
theorem modeDetect_of_selector {m : Mode} {blk : Nat} (h : blk % 2 ^ (m.number + 1) = 2 ^ m.number) :
    modeDetect blk = some m := by
  rcases modeDetect_cases blk with ⟨m', h', s⟩ | ⟨-, z⟩
  · rw [h', Mode.number_injective (le_antisymm (selector_unique s h) (selector_unique h s))]
  · have low := Nat.mod_mod_of_dvd blk (show 2 ^ (m.number + 1) ∣ 256 by cases m <;> decide)
    rw [z, h, Nat.zero_mod] at low
    exact absurd low.symm (by positivity)

/-- The selector bits of a block whose mode is found (40_mode R90). -/
theorem selector_of_modeDetect {m : Mode} {blk : Nat} (h : modeDetect blk = some m) :
    blk % 2 ^ (m.number + 1) = 2 ^ m.number := by
  rcases modeDetect_cases blk with ⟨m', h', hs⟩ | ⟨h', -⟩
  · rw [h'] at h
    cases h
    exact hs
  · rw [h'] at h
    cases h

/-- No mode is found exactly when byte 0 is 0 (40_mode R90, 30_encoding R74). -/
theorem modeDetect_none {blk : Nat} : modeDetect blk = none ↔ blk % 256 = 0 := by
  rcases modeDetect_cases blk with ⟨m, h, hs⟩ | ⟨h, h0⟩
  · rw [h]
    refine iff_of_false (by simp) fun h0 => ?_
    cases m <;> simp only [Mode.number, Nat.reducePow, Nat.reduceAdd] at hs <;> omega
  · exact iff_of_true h h0

@[simp] theorem length_leBytes (n v : Nat) : (leBytes n v).length = n := by
  induction n generalizing v with
  | zero => rfl
  | succ n ih => simp [leBytes, ih]

theorem leNat_lt (bs : List Byte) : leNat bs < 256 ^ bs.length := by
  induction bs with
  | nil => simp [leNat]
  | cons b bs ih =>
    have := b.isLt
    rw [leNat, List.length_cons, Nat.pow_succ]
    omega

theorem leNat_leBytes (n v : Nat) (h : v < 256 ^ n) : leNat (leBytes n v) = v := by
  induction n generalizing v with
  | zero => simp only [Nat.pow_zero, Nat.lt_one_iff] at h; simp [leBytes, leNat, h]
  | succ n ih =>
    rw [leBytes, leNat, ih (v / 256) (by rw [Nat.pow_succ] at h; omega)]
    simp only [BitVec.toNat_ofNat]
    omega

theorem leBytes_leNat (bs : List Byte) : leBytes bs.length (leNat bs) = bs := by
  induction bs with
  | nil => rfl
  | cons b bs ih =>
    have hb := b.isLt
    have h1 : (b.toNat + 256 * leNat bs) / 256 = leNat bs := by omega
    have h2 : BitVec.ofNat 8 (b.toNat + 256 * leNat bs) = b := by
      apply BitVec.eq_of_toNat_eq
      rw [BitVec.toNat_ofNat]
      omega
    rw [List.length_cons, leNat, leBytes, h1, h2, ih]

end Sys2Proof
end

