-- ==== Sys2Proof/Laws/State.lean ====
section
/-! SUPPORT. One lemma per field and update of the state: no later proof unfolds a record update. -/

namespace Sys2Proof.Machine

section
variable (s : State)

@[simp] theorem State.withBdu_scratch (f : Scratch → Scratch) : (s.withBdu f).scratch = f (Scratch.free s.draws) := rfl
@[simp] theorem State.withBdu_gsu (f : Scratch → Scratch) : (s.withBdu f).gsu = s.gsu := rfl
@[simp] theorem State.withBdu_mem (f : Scratch → Scratch) : (s.withBdu f).mem = s.mem := rfl
@[simp] theorem State.withBdu_queue (f : Scratch → Scratch) : (s.withBdu f).queue = s.queue := rfl
@[simp] theorem State.withBdu_replies (f : Scratch → Scratch) : (s.withBdu f).replies = s.replies := rfl
@[simp] theorem State.withBdu_turn (f : Scratch → Scratch) : (s.withBdu f).turn = s.turn := rfl
@[simp] theorem State.withBdu_draws (f : Scratch → Scratch) : (s.withBdu f).draws = s.draws + 1 := rfl

@[simp] theorem State.withMem_scratch (m : Memory) : (s.withMem m).scratch = s.scratch := rfl
@[simp] theorem State.withMem_gsu (m : Memory) : (s.withMem m).gsu = s.gsu := rfl
@[simp] theorem State.withMem_mem (m : Memory) : (s.withMem m).mem = m := rfl
@[simp] theorem State.withMem_queue (m : Memory) : (s.withMem m).queue = s.queue := rfl
@[simp] theorem State.withMem_replies (m : Memory) : (s.withMem m).replies = s.replies := rfl
@[simp] theorem State.withMem_turn (m : Memory) : (s.withMem m).turn = s.turn := rfl
@[simp] theorem State.withMem_draws (m : Memory) : (s.withMem m).draws = s.draws := rfl

@[simp] theorem State.reply_scratch (r : Reply) : (s.reply r).scratch = s.scratch := rfl
@[simp] theorem State.reply_gsu (r : Reply) : (s.reply r).gsu = s.gsu := rfl
@[simp] theorem State.reply_mem (r : Reply) : (s.reply r).mem = s.mem := rfl
@[simp] theorem State.reply_queue (r : Reply) : (s.reply r).queue = s.queue := rfl
@[simp] theorem State.reply_replies (r : Reply) : (s.reply r).replies = r :: s.replies := rfl
@[simp] theorem State.reply_turn (r : Reply) : (s.reply r).turn = s.turn := rfl
@[simp] theorem State.reply_draws (r : Reply) : (s.reply r).draws = s.draws := rfl

@[simp] theorem State.popAction_scratch : (s.popAction).scratch = s.scratch := rfl
@[simp] theorem State.popAction_gsu : (s.popAction).gsu = s.gsu := rfl
@[simp] theorem State.popAction_mem : (s.popAction).mem = s.mem := rfl
@[simp] theorem State.popAction_queue : (s.popAction).queue = s.queue.tail := rfl
@[simp] theorem State.popAction_replies : (s.popAction).replies = s.replies := rfl
@[simp] theorem State.popAction_turn : (s.popAction).turn = s.turn := rfl
@[simp] theorem State.popAction_draws : (s.popAction).draws = s.draws := rfl

@[simp] theorem State.redraw_scratch : (s.redraw).scratch = s.scratch := rfl
@[simp] theorem State.redraw_gsu : (s.redraw).gsu = s.gsu := rfl
@[simp] theorem State.redraw_mem : (s.redraw).mem = s.mem := rfl
@[simp] theorem State.redraw_queue : (s.redraw).queue = s.queue := rfl
@[simp] theorem State.redraw_replies : (s.redraw).replies = s.replies := rfl
@[simp] theorem State.redraw_turn : (s.redraw).turn = ⟨Config.freeHostFirst s.draws, Config.freePick s.draws, Config.freeExtraLanes s.draws⟩ := rfl
@[simp] theorem State.redraw_draws : (s.redraw).draws = s.draws + 1 := rfl

@[simp] theorem State.dropPending_scratch (k : Nat) : (s.dropPending k).scratch = s.scratch := rfl
@[simp] theorem State.dropPending_gsu (k : Nat) : (s.dropPending k).gsu = { s.gsu with pending := s.gsu.pending.eraseIdx k } := rfl
@[simp] theorem State.dropPending_mem (k : Nat) : (s.dropPending k).mem = s.mem := rfl
@[simp] theorem State.dropPending_queue (k : Nat) : (s.dropPending k).queue = s.queue := rfl
@[simp] theorem State.dropPending_replies (k : Nat) : (s.dropPending k).replies = s.replies := rfl
@[simp] theorem State.dropPending_turn (k : Nat) : (s.dropPending k).turn = s.turn := rfl
@[simp] theorem State.dropPending_draws (k : Nat) : (s.dropPending k).draws = s.draws := rfl

@[simp] theorem State.complete_scratch : (s.complete).scratch = s.scratch := rfl
@[simp] theorem State.complete_gsu : (s.complete).gsu = ⟨.idle, none, [], .ok, []⟩ := rfl
@[simp] theorem State.complete_mem : (s.complete).mem = s.mem := rfl
@[simp] theorem State.complete_queue : (s.complete).queue = s.queue := rfl
@[simp] theorem State.complete_replies : (s.complete).replies = s.replies := rfl
@[simp] theorem State.complete_turn : (s.complete).turn = s.turn := rfl
@[simp] theorem State.complete_draws : (s.complete).draws = s.draws := rfl

@[simp] theorem State.issue_scratch (c : TextureCmd) : (s.issue c).scratch = s.scratch := by
  unfold State.issue; split <;> rfl
@[simp] theorem State.issue_mem (c : TextureCmd) : (s.issue c).mem = s.mem := by
  unfold State.issue; split <;> rfl
@[simp] theorem State.issue_queue (c : TextureCmd) : (s.issue c).queue = s.queue := by
  unfold State.issue; split <;> rfl
@[simp] theorem State.issue_replies (c : TextureCmd) : (s.issue c).replies = s.replies := by
  unfold State.issue; split <;> rfl
@[simp] theorem State.issue_turn (c : TextureCmd) : (s.issue c).turn = s.turn := by
  unfold State.issue; split <;> rfl
@[simp] theorem State.issue_draws (c : TextureCmd) : (s.issue c).draws = s.draws := by
  unfold State.issue; split <;> rfl

/-- What the issue step leaves in the GSU registers (44_gather R171, R173, R174). -/
theorem State.issue_gsu (c : TextureCmd) : (s.issue c).gsu =
    match lengthError c with
    | some e => ⟨.idle, none, [], e, []⟩
    | none => ⟨.busy, some c, blockGrid c, s.gsu.status, s.mem⟩ := by
  unfold State.issue; split <;> simp [*]

end

end Sys2Proof.Machine
end

