-- ==== Sys2Proof/Laws/Blocks.lean ====
section
/-! SUPPORT. What each unit of the BDU writes, register by register, and what exec does with a block format. -/

namespace Sys2Proof.Machine

/-! MFX. -/

section
variable (m : Mode) (ns : Nat) (hasAlpha : Bool) (kind : PBits) (f : BlockFields) (sc : Scratch)

@[simp] theorem mfx_mode : (mfx m ns hasAlpha kind f sc).mode = .valid m := by simp only [mfx]
@[simp] theorem mfx_cur : (mfx m ns hasAlpha kind f sc).cur = 128 := by simp only [mfx]
@[simp] theorem mfx_part : (mfx m ns hasAlpha kind f sc).part = BitVec.ofNat 6 f.part := by simp only [mfx]
@[simp] theorem mfx_rot : (mfx m ns hasAlpha kind f sc).rot = BitVec.ofNat 2 f.rot := by simp only [mfx]
@[simp] theorem mfx_isel : (mfx m ns hasAlpha kind f sc).isel = BitVec.ofNat 1 f.isel := by simp only [mfx]
@[simp] theorem mfx_raw (s : Fin 3) (e : Fin 2) : (mfx m ns hasAlpha kind f sc).raw[s][e] =
    if s.val < ns then rawEndpoint hasAlpha f sc.raw[s][e] (2 * s.val + e.val) else sc.raw[s][e] := by
  simp [mfx]
@[simp] theorem mfx_pb (s : Fin 3) (e : Fin 2) : (mfx m ns hasAlpha kind f sc).pb[s][e] =
    if s.val < ns then pBit kind f sc.pb[s][e] s.val e.val else sc.pb[s][e] := by
  simp [mfx]
@[simp] theorem mfx_idx (p : Fin 16) : (mfx m ns hasAlpha kind f sc).idx[p] = BitVec.ofNat 4 (f.idx.getD p.val 0) := by
  simp [mfx]
@[simp] theorem mfx_idx2 : (mfx m ns hasAlpha kind f sc).idx2 = sc.idx2 := by simp only [mfx]
@[simp] theorem mfxSecondary_idx2 (p : Fin 16) : (mfxSecondary f sc).idx2[p] = BitVec.ofNat 3 (f.idx2.getD p.val 0) := by
  simp [mfxSecondary]
@[simp] theorem mfxSecondary_mode : (mfxSecondary f sc).mode = sc.mode := by simp only [mfxSecondary]
@[simp] theorem mfxSecondary_cur : (mfxSecondary f sc).cur = sc.cur := by simp only [mfxSecondary]
@[simp] theorem mfxSecondary_part : (mfxSecondary f sc).part = sc.part := by simp only [mfxSecondary]
@[simp] theorem mfxSecondary_rot : (mfxSecondary f sc).rot = sc.rot := by simp only [mfxSecondary]
@[simp] theorem mfxSecondary_isel : (mfxSecondary f sc).isel = sc.isel := by simp only [mfxSecondary]
@[simp] theorem mfxSecondary_raw : (mfxSecondary f sc).raw = sc.raw := by simp only [mfxSecondary]
@[simp] theorem mfxSecondary_pb : (mfxSecondary f sc).pb = sc.pb := by simp only [mfxSecondary]
@[simp] theorem mfxSecondary_idx : (mfxSecondary f sc).idx = sc.idx := by simp only [mfxSecondary]

end

/-! PLE. -/

section
variable (ns : Nat) (sc : Scratch)

@[simp] theorem ple_sub (p : Fin 16) : (ple ns sc).sub[p] = BitVec.ofNat 2 (subsetOf ns sc.part.toNat p.val) := by
  simp [ple]
@[simp] theorem ple_mode : (ple ns sc).mode = sc.mode := by simp only [ple]
@[simp] theorem ple_cur : (ple ns sc).cur = sc.cur := by simp only [ple]
@[simp] theorem ple_part : (ple ns sc).part = sc.part := by simp only [ple]
@[simp] theorem ple_rot : (ple ns sc).rot = sc.rot := by simp only [ple]
@[simp] theorem ple_isel : (ple ns sc).isel = sc.isel := by simp only [ple]
@[simp] theorem ple_raw : (ple ns sc).raw = sc.raw := by simp only [ple]
@[simp] theorem ple_pb : (ple ns sc).pb = sc.pb := by simp only [ple]
@[simp] theorem ple_idx : (ple ns sc).idx = sc.idx := by simp only [ple]
@[simp] theorem ple_idx2 : (ple ns sc).idx2 = sc.idx2 := by simp only [ple]

end

/-! EUI. -/

section
variable (ns : Nat) (hasP : Bool) (nc : Nat) (na : Option Nat) (sc : Scratch)

@[simp] theorem eui_ep (s : Fin 3) (e : Fin 2) : (eui ns hasP nc na sc).ep[s][e] =
    if s.val < ns then unpackEndpoint hasP nc na sc.raw[s][e] sc.pb[s][e] else sc.ep[s][e] := by
  simp [eui]
@[simp] theorem eui_mode : (eui ns hasP nc na sc).mode = sc.mode := by simp only [eui]
@[simp] theorem eui_cur : (eui ns hasP nc na sc).cur = sc.cur := by simp only [eui]
@[simp] theorem eui_part : (eui ns hasP nc na sc).part = sc.part := by simp only [eui]
@[simp] theorem eui_rot : (eui ns hasP nc na sc).rot = sc.rot := by simp only [eui]
@[simp] theorem eui_isel : (eui ns hasP nc na sc).isel = sc.isel := by simp only [eui]
@[simp] theorem eui_raw : (eui ns hasP nc na sc).raw = sc.raw := by simp only [eui]
@[simp] theorem eui_pb : (eui ns hasP nc na sc).pb = sc.pb := by simp only [eui]
@[simp] theorem eui_sub : (eui ns hasP nc na sc).sub = sc.sub := by simp only [eui]
@[simp] theorem eui_idx : (eui ns hasP nc na sc).idx = sc.idx := by simp only [eui]
@[simp] theorem eui_idx2 : (eui ns hasP nc na sc).idx2 = sc.idx2 := by simp only [eui]

end

/-! PCC. -/

section
variable (cw aw : Scratch → Fin 16 → Nat) (sc : Scratch)

@[simp] theorem pcc_pix (p : Fin 16) : (pcc cw aw sc).pix[p] = combine sc p (cw sc p) (aw sc p) := by
  simp [pcc]
@[simp] theorem pcc_mode : (pcc cw aw sc).mode = sc.mode := by simp only [pcc]
@[simp] theorem pcc_cur : (pcc cw aw sc).cur = sc.cur := by simp only [pcc]
@[simp] theorem pcc_part : (pcc cw aw sc).part = sc.part := by simp only [pcc]
@[simp] theorem pcc_rot : (pcc cw aw sc).rot = sc.rot := by simp only [pcc]
@[simp] theorem pcc_isel : (pcc cw aw sc).isel = sc.isel := by simp only [pcc]
@[simp] theorem pcc_raw : (pcc cw aw sc).raw = sc.raw := by simp only [pcc]
@[simp] theorem pcc_pb : (pcc cw aw sc).pb = sc.pb := by simp only [pcc]
@[simp] theorem pcc_sub : (pcc cw aw sc).sub = sc.sub := by simp only [pcc]
@[simp] theorem pcc_idx : (pcc cw aw sc).idx = sc.idx := by simp only [pcc]
@[simp] theorem pcc_idx2 : (pcc cw aw sc).idx2 = sc.idx2 := by simp only [pcc]
@[simp] theorem pcc_ep : (pcc cw aw sc).ep = sc.ep := by simp only [pcc]

end

/-! The chain of each mode, spelled out with the numbers of its rule. -/

section
variable (f : BlockFields) (sc : Scratch)

/-- 40_mode R94: 3 subsets, unique p-bits, 5-bit colour, alpha 255, 3-bit indices. -/
theorem runM0_eq : runM0 f sc =
    pcc (primaryWeight 3) (primaryWeight 3) (eui 3 true 5 none (ple 3 (mfx .m0 3 false .unique f sc))) := rfl

/-- 40_mode R95: 2 subsets, shared p-bits, 7-bit colour, alpha 255, 3-bit indices. -/
theorem runM1_eq : runM1 f sc =
    pcc (primaryWeight 3) (primaryWeight 3) (eui 2 true 7 none (ple 2 (mfx .m1 2 false .shared f sc))) := rfl

/-- 40_mode R96: 3 subsets, no p-bit, 5-bit colour, alpha 255, 2-bit indices. -/
theorem runM2_eq : runM2 f sc =
    pcc (primaryWeight 2) (primaryWeight 2) (eui 3 false 5 none (ple 3 (mfx .m2 3 false .none f sc))) := rfl

/-- 40_mode R97: 2 subsets, unique p-bits, 8-bit colour, alpha 255, 2-bit indices. -/
theorem runM3_eq : runM3 f sc =
    pcc (primaryWeight 2) (primaryWeight 2) (eui 2 true 8 none (ple 2 (mfx .m3 2 false .unique f sc))) := rfl

/-- 40_mode R98: 1 subset, no p-bit, 5-bit colour and 6-bit alpha, a 2-bit and a 3-bit stream that ISEL assigns to
colour and alpha (43_color R152). -/
theorem runM4_eq : runM4 f sc =
    let t := eui 1 false 5 (some 6) (ple 1 (mfxSecondary f (mfx .m4 1 true .none f sc)))
    if BitVec.ofNat 1 f.isel = 0 then pcc (primaryWeight 2) (secondaryWeight 3) t
    else pcc (secondaryWeight 3) (primaryWeight 2) t := by
  by_cases hi : BitVec.ofNat 1 f.isel = 0#1 <;>
    simp [runM4, chain, pccStreams, modeHasAlpha, modeHasP, modePBits, precision, alphaPrecision, Tables.modeParams, hi]

/-- 40_mode R99: 1 subset, no p-bit, 7-bit colour and 8-bit alpha, two 2-bit streams. -/
theorem runM5_eq : runM5 f sc = pcc (primaryWeight 2) (secondaryWeight 2)
    (eui 1 false 7 (some 8) (ple 1 (mfxSecondary f (mfx .m5 1 true .none f sc)))) := rfl

/-- 40_mode R100: 1 subset, unique p-bits, 8-bit colour and alpha, 4-bit indices. -/
theorem runM6_eq : runM6 f sc =
    pcc (primaryWeight 4) (primaryWeight 4) (eui 1 true 8 (some 8) (ple 1 (mfx .m6 1 true .unique f sc))) := rfl

/-- 40_mode R101: 2 subsets, unique p-bits, 6-bit colour and alpha, 2-bit indices. -/
theorem runM7_eq : runM7 f sc =
    pcc (primaryWeight 2) (primaryWeight 2) (eui 2 true 6 (some 6) (ple 2 (mfx .m7 2 true .unique f sc))) := rfl

end

/-- A digit of a partition row of `ns` subsets is below `ns`, whatever the row number and the pixel. -/
theorem subsetOf_lt (ns part p : Nat) (hns : ns = 1 ∨ ns = 2 ∨ ns = 3) (hp : p < 16) : subsetOf ns part p < ns := by
  have h2 : ∀ part < 64, ∀ p < 16, rowDigit (Tables.partition2.getD part 0) p < 2 := by decide
  have h3 : ∀ part < 64, ∀ p < 16, rowDigit (Tables.partition3.getD part 0) p < 3 := by decide
  have l2 : Tables.partition2.length = 64 := by decide
  have l3 : Tables.partition3.length = 64 := by decide
  rcases hns with rfl | rfl | rfl
  · simp [subsetOf]
  · by_cases h : part < 64
    · simpa [subsetOf] using h2 part h p hp
    · have : Tables.partition2.getD part 0 = 0 := List.getD_eq_default _ _ (by omega)
      simp only [subsetOf, rowDigit, if_true, this, if_false, Nat.reduceEqDiff, Nat.zero_div, Nat.zero_mod]
      omega
  · by_cases h : part < 64
    · simpa [subsetOf] using h3 part h p hp
    · have : Tables.partition3.getD part 0 = 0 := List.getD_eq_default _ _ (by omega)
      simp only [subsetOf, rowDigit, if_true, this, if_false, Nat.reduceEqDiff, Nat.zero_div, Nat.zero_mod]
      omega

/-- The endpoint pair of a subset below 3. -/
theorem endpoints_of_lt (sc : Scratch) (s : Fin 3) : sc.endpoints s.val = sc.ep[s] := by
  simp [Scratch.endpoints]

theorem expand_lt (u n : Nat) : expand u n < 256 := by
  have : expand u n = _ &&& (2 ^ 8 - 1) := rfl
  rw [this, Nat.and_two_pow_sub_one_eq_mod]
  exact Nat.mod_lt _ (by norm_num)

@[simp] theorem toNat_unpackChannel (hasP : Bool) (n : Nat) (raw : Byte) (pbit : BitVec 1) :
    (unpackChannel hasP n raw pbit).toNat = expand (withPBit hasP raw.toNat pbit.toNat) n := by
  simp only [unpackChannel, BitVec.toNat_ofNat]
  exact Nat.mod_eq_of_lt (expand_lt _ _)

/-- Expansion from 8 bits is the identity (41_endpoint R112). -/
theorem expand_eight (u : Nat) (h : u < 256) : expand u 8 = u := by
  have h1 : u >>> (2 * 8 - 8) = 0 := by rw [Nat.shiftRight_eq_div_pow]; omega
  have h2 : u &&& (2 ^ 8 - 1) = u := by rw [Nat.and_two_pow_sub_one_eq_mod]; omega
  rw [expand, h1, Nat.sub_self, Nat.shiftLeft_zero, Nat.or_zero]
  exact h2

/-- Every weight is at most 64 (41_endpoint R113). -/
theorem weight_le (b i : Nat) : weight b i ≤ 64 := by
  have key : ∀ l : List Nat, (∀ x ∈ l, x ≤ 64) → l.getD i 0 ≤ 64 := by
    intro l hl
    rcases Nat.lt_or_ge i l.length with h | h
    · rw [List.getD_eq_getElem _ _ h]; exact hl _ (List.getElem_mem h)
    · rw [List.getD_eq_default _ _ h]; omega
  unfold weight
  split
  · exact key _ (by decide)
  · split <;> exact key _ (by decide)

/-- The interpolated value lies between its endpoints' bounds: it fits 8 bits (41_endpoint R115). -/
theorem interp_le (e0 e1 w b : Nat) (h0 : e0 ≤ b) (h1 : e1 ≤ b) (hw : w ≤ 64) : interp e0 e1 w ≤ b := by
  have h2 := Nat.mul_le_mul_left (64 - w) h0
  have h3 := Nat.mul_le_mul_left w h1
  have h4 : (64 - w) * b + w * b = 64 * b := by rw [← Nat.add_mul]; congr 1; omega
  rw [interp, Nat.shiftRight_eq_div_pow]
  omega

theorem toNat_interpByte (e0 e1 : Byte) (w : Nat) (hw : w ≤ 64) :
    (interpByte e0 e1 w).toNat = interp e0.toNat e1.toNat w := by
  have := interp_le e0.toNat e1.toNat w 255 (by have := e0.isLt; omega) (by have := e1.isLt; omega) hw
  simp only [interpByte, BitVec.toNat_ofNat]
  omega

/-- exec of the instruction of a block is the BDU on that block. -/
theorem exec_instr (b : Block) (s : State) : exec b.instr s = .next (s.withBdu (blockRun b)) := by
  cases b with
  | modeless => rfl
  | mode m f => cases m <;> rfl

/-- Every block decode leaves the cursor within 0..128 (10_state R22). -/
theorem blockRun_cur (b : Block) (draw : Nat) : (blockRun b (Scratch.free draw)).cur.toNat ≤ 128 := by
  cases b with
  | modeless =>
    simp only [blockRun, runInv, Scratch.free, BitVec.toNat_ofNat]
    omega
  | mode m f =>
    by_cases h : BitVec.ofNat 1 f.isel = 0#1 <;> cases m <;>
      simp [blockRun, runM0_eq, runM1_eq, runM2_eq, runM3_eq, runM4_eq, runM5_eq, runM6_eq, runM7_eq, h]

/-! Well-formed fields fit the registers they are written to. -/

theorem toNat_of_fitsAll {ws vs : List Nat} (h : fitsAll ws vs = true) (n i : Nat) (hw : ws.getD i 0 ≤ n) :
    (BitVec.ofNat n (vs.getD i 0)).toNat = vs.getD i 0 := by
  rw [BitVec.toNat_ofNat, Nat.mod_eq_of_lt]
  exact (getD_lt_of_fitsAll h i).trans_le (Nat.pow_le_pow_right (by norm_num) hw)

theorem getD_le_of_forall {l : List Nat} {n : Nat} (h : ∀ x ∈ l, x ≤ n) (i : Nat) : l.getD i 0 ≤ n := by
  rcases Nat.lt_or_ge i l.length with hi | hi
  · rw [List.getD_eq_getElem _ _ hi]; exact h _ (List.getElem_mem hi)
  · rw [List.getD_eq_default _ _ hi]; exact Nat.zero_le _

theorem idxWidths_le (m : Mode) (part i : Nat) : (idxWidths m part).getD i 0 ≤ 4 := by
  refine getD_le_of_forall (fun x hx => ?_) i
  obtain ⟨p, -, rfl⟩ := List.mem_map.1 hx
  have : (Tables.modeParams m).ib ≤ 4 := by cases m <;> decide
  dsimp only [idxWidth]
  split <;> omega

theorem idx2Widths_le (m : Mode) (i : Nat) : (idx2Widths m).getD i 0 ≤ 3 := by
  have key : ∀ m, ∀ x ∈ idx2Widths m, x ≤ 3 := by intro m; cases m <;> decide
  exact getD_le_of_forall (key m) i

/-- Every field of a well-formed block goes through its register unchanged (10_state R20). -/
structure Fit (f : BlockFields) : Prop where
  part : (BitVec.ofNat 6 f.part).toNat = f.part
  rot : (BitVec.ofNat 2 f.rot).toNat = f.rot
  isel : (BitVec.ofNat 1 f.isel).toNat = f.isel
  red (k : Nat) : (BitVec.ofNat 8 (f.red.getD k 0)).toNat = f.red.getD k 0
  green (k : Nat) : (BitVec.ofNat 8 (f.green.getD k 0)).toNat = f.green.getD k 0
  blue (k : Nat) : (BitVec.ofNat 8 (f.blue.getD k 0)).toNat = f.blue.getD k 0
  alpha (k : Nat) : (BitVec.ofNat 8 (f.alpha.getD k 0)).toNat = f.alpha.getD k 0
  uniqueP (k : Nat) : (BitVec.ofNat 1 (f.uniqueP.getD k 0)).toNat = f.uniqueP.getD k 0
  sharedP (k : Nat) : (BitVec.ofNat 1 (f.sharedP.getD k 0)).toNat = f.sharedP.getD k 0
  idx (k : Nat) : (BitVec.ofNat 4 (f.idx.getD k 0)).toNat = f.idx.getD k 0
  idx2 (k : Nat) : (BitVec.ofNat 3 (f.idx2.getD k 0)).toNat = f.idx2.getD k 0

theorem fit_of_wf {m : Mode} {f : BlockFields} (h : f.wf m = true) : Fit f := by
  simp only [BlockFields.wf, Bool.and_eq_true, BlockFields.partFits, BlockFields.rotFits, BlockFields.iselFits,
    BlockFields.colourFits, BlockFields.alphaFits, BlockFields.uniquePFits, BlockFields.sharedPFits,
    BlockFields.idxFits, BlockFields.idx2Fits, decide_eq_true_eq] at h
  obtain ⟨⟨⟨⟨⟨⟨⟨⟨hp, hr⟩, hi⟩, ⟨hred, hgreen⟩, hblue⟩, ha⟩, hu⟩, hs⟩, hx⟩, hx2⟩ := h
  have params : (Tables.modeParams m).pb ≤ 6 ∧ (Tables.modeParams m).rb ≤ 2 ∧ (Tables.modeParams m).isb ≤ 1 ∧
      (Tables.modeParams m).cb ≤ 8 ∧ (Tables.modeParams m).ab ≤ 8 := by cases m <;> decide
  have same : ∀ {w n v : Nat}, v < 2 ^ w → w ≤ n → (BitVec.ofNat n v).toNat = v := fun h1 h2 => by
    rw [BitVec.toNat_ofNat, Nat.mod_eq_of_lt (h1.trans_le (Nat.pow_le_pow_right (by norm_num) h2))]
  have rep : ∀ {k w n : Nat}, w ≤ n → ∀ i, (List.replicate k w).getD i 0 ≤ n := fun h i =>
    getD_le_of_forall (fun x hx => by rw [List.eq_of_mem_replicate hx]; exact h) i
  have alpha : ∀ i, (alphaWidths m).getD i 0 ≤ 8 := fun i => by
    unfold alphaWidths
    split
    · exact Nat.zero_le _
    · exact rep params.2.2.2.2 i
  exact ⟨same hp params.1, same hr params.2.1, same hi params.2.2.1,
    fun k => toNat_of_fitsAll hred 8 k (rep params.2.2.2.1 k), fun k => toNat_of_fitsAll hgreen 8 k (rep params.2.2.2.1 k),
    fun k => toNat_of_fitsAll hblue 8 k (rep params.2.2.2.1 k), fun k => toNat_of_fitsAll ha 8 k (alpha k),
    fun k => toNat_of_fitsAll hu 1 k (rep le_rfl k), fun k => toNat_of_fitsAll hs 1 k (rep le_rfl k),
    fun k => toNat_of_fitsAll hx 4 k (idxWidths_le m f.part k), fun k => toNat_of_fitsAll hx2 3 k (idx2Widths_le m k)⟩

/-! The combiner. -/

theorem vector_ext {α : Type} {v w : Vector α 16} (h : ∀ p : Fin 16, v[p] = w[p]) : v = w := by
  ext i hi
  exact h ⟨i, hi⟩

theorem combine_pcc (cw aw : Scratch → Fin 16 → Nat) (sc : Scratch) (p : Fin 16) (x y : Nat) :
    combine (pcc cw aw sc) p x y = combine sc p x y := by
  simp only [combine, Scratch.endpoints, pcc_sub, pcc_ep, pcc_rot]

/-- A pixel is blended from the endpoints of its subset (43_color R151). -/
theorem combine_eq (sc : Scratch) (p : Fin 16) (cw aw : Nat) (s : Fin 3) (h : sc.sub[p].toNat = s.val) :
    combine sc p cw aw = rotate sc.rot.toNat (blend sc.ep[s][(0 : Fin 2)] sc.ep[s][(1 : Fin 2)] cw aw) := by
  simp only [combine, h, endpoints_of_lt]
  rfl

/-- A pixel depends on its subset number, the rotation and the endpoints of the mode's subsets. -/
theorem combine_congr {sc sc' : Scratch} {p : Fin 16} (cw aw : Nat) {ns : Nat} (hns : ns ≤ 3)
    (h : sc.sub[p].toNat < ns) (hsub : sc.sub[p] = sc'.sub[p]) (hrot : sc.rot = sc'.rot)
    (hep : ∀ (s : Fin 3) (e : Fin 2), s.val < ns → sc.ep[s][e] = sc'.ep[s][e]) :
    combine sc p cw aw = combine sc' p cw aw := by
  rw [combine_eq sc p cw aw ⟨_, lt_of_lt_of_le h hns⟩ rfl,
    combine_eq sc' p cw aw ⟨sc.sub[p].toNat, lt_of_lt_of_le h hns⟩ (congrArg BitVec.toNat hsub).symm,
    hrot, hep _ _ h, hep _ _ h]

/-- Interpolating between equal values gives that value (41_endpoint R116). -/
theorem blend_same (e : Rgba) {cw aw : Nat} (hc : cw ≤ 64) (ha : aw ≤ 64) : blend e e cw aw = e := by
  have key : ∀ (x : Byte) (w : Nat), w ≤ 64 → interpByte x x w = x := by
    intro x w hw
    apply BitVec.eq_of_toNat_eq
    rw [toNat_interpByte _ _ _ hw, interp, Nat.shiftRight_eq_div_pow]
    have : (64 - w) * x.toNat + w * x.toNat = 64 * x.toNat := by rw [← Nat.add_mul]; congr 1; omega
    omega
  cases e
  simp [blend, key, hc, ha]

theorem blockRun_mode (m : Mode) (f : BlockFields) (sc : Scratch) :
    (blockRun (.mode m f) sc).mode = .valid m := by
  by_cases h : BitVec.ofNat 1 f.isel = 0#1 <;> cases m <;>
    simp [blockRun, runM0_eq, runM1_eq, runM2_eq, runM3_eq, runM4_eq, runM5_eq, runM6_eq, runM7_eq, h]

theorem blockRun_rot (m : Mode) (f : BlockFields) (sc : Scratch) :
    (blockRun (.mode m f) sc).rot = BitVec.ofNat 2 f.rot := by
  by_cases h : BitVec.ofNat 1 f.isel = 0#1 <;> cases m <;>
    simp [blockRun, runM0_eq, runM1_eq, runM2_eq, runM3_eq, runM4_eq, runM5_eq, runM6_eq, runM7_eq, h]

/-- Every pixel of a block that has a mode is combined with two weights of at most 64 (43_color R150). -/
theorem blockRun_pixel (m : Mode) (f : BlockFields) (sc : Scratch) (p : Fin 16) : ∃ cw aw, cw ≤ 64 ∧ aw ≤ 64 ∧
    (blockRun (.mode m f) sc).pix[p] = combine (blockRun (.mode m f) sc) p cw aw := by
  cases m
  case m4 =>
    simp only [blockRun, runM4_eq]
    split
    all_goals
      simp only [pcc_pix, combine_pcc]
      refine ⟨_, _, ?_, ?_, rfl⟩ <;> exact weight_le _ _
  all_goals
    simp only [blockRun, runM0_eq, runM1_eq, runM2_eq, runM3_eq, runM5_eq, runM6_eq, runM7_eq, pcc_pix, combine_pcc]
    refine ⟨_, _, ?_, ?_, rfl⟩ <;> exact weight_le _ _

end Sys2Proof.Machine
end

