-- ==== Sys2Proof/Laws/Memory.lean ====
section
/-! SUPPORT. The laws of host memory: read after write, every operation keeps the canonical form, and a canonical
memory is determined by what it reads as. -/

namespace Sys2Proof.Machine
namespace Memory

theorem wf_nil : Memory.wf [] := by simp [Memory.wf]

theorem wf_tail {c : Host.Cell} {m : Memory} (h : Memory.wf (c :: m)) : Memory.wf m :=
  ⟨(List.pairwise_cons.1 h.1).2, fun d hd => h.2 d (List.mem_cons_of_mem c hd)⟩

theorem wf_head_lt {c : Host.Cell} {m : Memory} (h : Memory.wf (c :: m)) : ∀ d ∈ m, c.1 < d.1 :=
  (List.pairwise_cons.1 h.1).1

/-- An address that no cell has reads as the unwritten byte. -/
theorem read_of_not_mem {m : Memory} {a : Nat} (h : ∀ c ∈ m, c.1 ≠ a) : m.read a = Config.unwrittenByte := by
  induction m with
  | nil => rfl
  | cons c m ih =>
    rw [Memory.read, if_neg (h c (by simp))]
    exact ih fun d hd => h d (List.mem_cons_of_mem c hd)

theorem read_below {m : Memory} {a : Nat} (h : ∀ c ∈ m, a < c.1) : m.read a = Config.unwrittenByte :=
  read_of_not_mem fun c hc => Nat.ne_of_gt (h c hc)

/-- The addresses of a memory after a write are the old ones and the one written. -/
theorem mem_write {m : Memory} {a : Nat} {b : Byte} {d : Host.Cell} (h : d ∈ m.write a b) : d ∈ m ∨ d = (a, b) := by
  induction m with
  | nil => simp only [Memory.write] at h; split at h <;> simp_all
  | cons c m ih =>
    simp only [Memory.write] at h
    split at h
    · split at h <;> simp_all
      tauto
    · split at h
      · split at h <;> simp_all
        tauto
      · rcases List.mem_cons.1 h with h | h
        · simp [h]
        · rcases ih h with h | h <;> simp [h]

/-- A write keeps the canonical form. -/
theorem wf_write {m : Memory} (h : Memory.wf m) (a : Nat) (b : Byte) : Memory.wf (m.write a b) := by
  induction m with
  | nil =>
    simp only [Memory.write]
    split <;> simp_all [Memory.wf]
  | cons c m ih =>
    have hlt := wf_head_lt h
    have hm := wf_tail h
    simp only [Memory.write]
    split
    next hac =>
      split
      · exact h
      next hb =>
        refine ⟨List.pairwise_cons.2 ⟨?_, h.1⟩, ?_⟩
        · intro d hd
          rcases List.mem_cons.1 hd with rfl | hd
          · exact hac
          · exact Nat.lt_trans hac (hlt d hd)
        · intro d hd
          rcases List.mem_cons.1 hd with rfl | hd
          · exact hb
          · exact h.2 d hd
    next hac =>
      split
      next heq =>
        split
        · exact hm
        next hb =>
          refine ⟨List.pairwise_cons.2 ⟨fun d hd => heq ▸ hlt d hd, hm.1⟩, ?_⟩
          intro d hd
          rcases List.mem_cons.1 hd with rfl | hd
          · exact hb
          · exact hm.2 d hd
      next hne =>
        refine ⟨List.pairwise_cons.2 ⟨?_, (ih hm).1⟩, ?_⟩
        · intro d hd
          rcases mem_write hd with hd | rfl
          · exact hlt d hd
          · simp only; omega
        · intro d hd
          rcases List.mem_cons.1 hd with rfl | hd
          · exact h.2 _ (by simp)
          · exact (ih hm).2 d hd

/-- Read after write. -/
theorem read_write {m : Memory} (h : Memory.wf m) (a : Nat) (b : Byte) (x : Nat) :
    (m.write a b).read x = if x = a then b else m.read x := by
  induction m with
  | nil =>
    simp only [Memory.write]
    split <;> simp_all [Memory.read, eq_comm]
  | cons c m ih =>
    have hlt := wf_head_lt h
    simp only [Memory.write]
    split
    next hac =>
      have hbelow : Memory.read (c :: m) a = Config.unwrittenByte :=
        read_below fun d hd => by
          rcases List.mem_cons.1 hd with rfl | hd
          · exact hac
          · exact Nat.lt_trans hac (hlt d hd)
      split
      next hb => split <;> simp_all
      next hb => simp only [Memory.read, eq_comm]
    next hac =>
      split
      next heq =>
        subst heq
        have hbelow : Memory.read m c.1 = Config.unwrittenByte := read_below hlt
        split
        next hb =>
          by_cases hx : x = c.1
          · simp [hx, hb, hbelow]
          · simp [Memory.read, hx, Ne.symm hx]
        next hb =>
          by_cases hx : x = c.1
          · simp [Memory.read, hx]
          · simp [Memory.read, hx, Ne.symm hx]
      next hne =>
        simp only [Memory.read, ih (wf_tail h)]
        by_cases hx : c.1 = x
        · have : x ≠ a := by omega
          simp [hx, this]
        · simp [hx]

theorem wf_writeBytes {m : Memory} (h : Memory.wf m) (a : Nat) (bs : List Byte) : Memory.wf (m.writeBytes a bs) := by
  induction bs generalizing m a with
  | nil => exact h
  | cons b bs ih => exact ih (wf_write h a b) (a + 1)

/-- Read after a write of several bytes. -/
theorem read_writeBytes {m : Memory} (h : Memory.wf m) (a : Nat) (bs : List Byte) (x : Nat) :
    (m.writeBytes a bs).read x = if a ≤ x ∧ x < a + bs.length then bs.getD (x - a) 0 else m.read x := by
  induction bs generalizing m a with
  | nil =>
    have : ¬ (a ≤ x ∧ x < a + ([] : List Byte).length) := by simp
    rw [if_neg this]; rfl
  | cons b bs ih =>
    rw [Memory.writeBytes, ih (wf_write h a b), read_write h]
    by_cases hx : x = a
    · subst hx
      simp
    · by_cases hr : a + 1 ≤ x ∧ x < a + 1 + bs.length
      · have h1 : a ≤ x ∧ x < a + (b :: bs).length := by simp; omega
        have h2 : x - a = (x - (a + 1)) + 1 := by omega
        rw [if_pos hr, if_pos h1, h2, List.getD_cons_succ]
      · have h1 : ¬ (a ≤ x ∧ x < a + (b :: bs).length) := by simp; omega
        rw [if_neg hr, if_neg h1, if_neg hx]

@[simp] theorem length_readBytes (m : Memory) (a n : Nat) : (m.readBytes a n).length = n := by
  induction n generalizing a with
  | zero => rfl
  | succ n ih => simp [Memory.readBytes, ih]

/-- Memories that read alike on a range give the same bytes there. -/
theorem readBytes_congr {m m' : Memory} (a n : Nat) (h : ∀ x, a ≤ x → x < a + n → m.read x = m'.read x) :
    m.readBytes a n = m'.readBytes a n := by
  induction n generalizing a with
  | zero => rfl
  | succ n ih =>
    rw [Memory.readBytes, Memory.readBytes, h a (by omega) (by omega),
      ih (a + 1) fun x h1 h2 => h x (by omega) (by omega)]

/-- Canonical memories that read alike are the same list. -/
theorem ext_of_wf {m m' : Memory} (h : Memory.wf m) (h' : Memory.wf m') (hr : ∀ a, m.read a = m'.read a) :
    m = m' := by
  induction m generalizing m' with
  | nil =>
    cases m' with
    | nil => rfl
    | cons d m' =>
      have := hr d.1
      simp only [Memory.read, if_true] at this
      exact absurd this.symm (h'.2 d (by simp))
  | cons c m ih =>
    cases m' with
    | nil =>
      have := hr c.1
      simp only [Memory.read, if_true] at this
      exact absurd this (h.2 c (by simp))
    | cons d m' =>
      have hc := wf_head_lt h
      have hd := wf_head_lt h'
      have key : ∀ {p q : Host.Cell} {l l' : Memory}, Memory.wf (p :: l) → Memory.wf (q :: l') →
          (∀ a, Memory.read (p :: l) a = Memory.read (q :: l') a) → ¬ p.1 < q.1 := by
        intro p q l l' hp hq hpq hlt
        have h1 := hpq p.1
        rw [read_below (m := q :: l')] at h1
        · simp only [Memory.read, if_true] at h1
          exact hp.2 p (by simp) h1
        · intro e he
          rcases List.mem_cons.1 he with rfl | he
          · exact hlt
          · exact Nat.lt_trans hlt (wf_head_lt hq e he)
      have h1 : c.1 = d.1 := by
        have := key h h' hr
        have := key h' h fun a => (hr a).symm
        omega
      have h2 : c.2 = d.2 := by
        have := hr c.1
        simpa [Memory.read, h1] using this
      have hcd : c = d := Prod.ext h1 h2
      subst hcd
      have htail : m = m' := ih (wf_tail h) (wf_tail h') fun a => by
        by_cases ha : c.1 = a
        · rw [read_below (fun e he => ha ▸ hc e he), read_below fun e he => ha ▸ hd e he]
        · simpa [Memory.read, ha] using hr a
      rw [htail]

end Memory

end Sys2Proof.Machine
end

