-- ==== Sys2Proof/Laws/GatherScatter.lean ====
section
/-! SUPPORT. What the gather-scatter unit's operations can do: the used ranges, the block grid, the offsets, the
scatter of a block's pixels, and one block step. -/

namespace Sys2Proof.Machine
open Memory

/-! The used ranges. -/

theorem inUsed_iff (c : TextureCmd) (a : Nat) : inUsed c a = true ↔ c.inBase ≤ a ∧ a < c.inBase + needIn c := by
  simp [inUsed]

theorem outUsed_iff (c : TextureCmd) (a : Nat) : outUsed c a = true ↔ c.outBase ≤ a ∧ a < c.outBase + needOut c := by
  simp [outUsed]

theorem outUsed_false_iff (c : TextureCmd) (a : Nat) :
    outUsed c a = false ↔ ¬ (c.outBase ≤ a ∧ a < c.outBase + needOut c) := by
  rw [← outUsed_iff, Bool.not_eq_true]

/-- The used ranges overlap exactly when they share a byte address (20_memory R54). -/
theorem buffersOverlap_iff (c : TextureCmd) :
    buffersOverlap c = true ↔ ∃ a, inUsed c a = true ∧ outUsed c a = true := by
  simp only [buffersOverlap, Bool.and_eq_true, decide_eq_true_eq, inUsed_iff, outUsed_iff]
  constructor
  · intro h
    exact ⟨max c.inBase c.outBase, by omega⟩
  · rintro ⟨a, h⟩
    omega

/-- Both length checks pass (44_gather R173). -/
theorem lengthError_eq_none (c : TextureCmd) :
    lengthError c = none ↔ needIn c ≤ c.inLen ∧ needOut c ≤ c.outLen := by
  unfold lengthError
  split
  · simp; omega
  · split
    · simp; omega
    · simp; omega

theorem CommandLegal.disjoint {c : TextureCmd} (h : CommandLegal c) {a : Nat} (hi : inUsed c a = true) :
    outUsed c a = false := by
  cases ho : outUsed c a
  · rfl
  · have := (buffersOverlap_iff c).2 ⟨a, hi, ho⟩
    rw [h.2.1] at this
    cases this

/-! The block grid (44_gather R174). -/

theorem mem_blockGrid (c : TextureCmd) (b : Nat × Nat) :
    b ∈ blockGrid c ↔ b.1 < gridWidth c ∧ b.2 < gridHeight c := by
  obtain ⟨col, row⟩ := b
  simp [blockGrid, and_comm]

theorem nodup_blockGrid (c : TextureCmd) : (blockGrid c).Nodup := by
  refine List.nodup_flatMap.2 ⟨fun row _ => ?_, ?_⟩
  · exact List.nodup_range.map fun a b h => (Prod.mk.inj h).1
  · refine List.nodup_range.pairwise_of_forall_ne fun row _ row' _ hne => ?_
    intro b h h'
    simp only [List.mem_map] at h h'
    obtain ⟨_, -, rfl⟩ := h
    obtain ⟨_, -, h'⟩ := h'
    exact hne (Prod.mk.inj h').2.symm

theorem length_blockGrid (c : TextureCmd) : (blockGrid c).length = gridWidth c * gridHeight c := by
  simp [blockGrid, List.length_flatMap, Nat.mul_comm]

/-! Offsets. -/

/-- A block of the grid lies in the input (20_memory R41, R44). -/
theorem blockOffset_bound (c : TextureCmd) {col row : Nat} (hc : col < gridWidth c) (hr : row < gridHeight c) :
    blockOffset c col row + 16 ≤ needIn c := by
  have h : (row + 1) * gridWidth c ≤ gridHeight c * gridWidth c := Nat.mul_le_mul_right _ hr
  rw [Nat.add_mul] at h
  rw [blockOffset, needIn, Nat.mul_comm (gridWidth c)]
  omega

/-- A pixel of the image lies in the output (20_memory R42, R44). -/
theorem pixelOffset_bound (c : TextureCmd) {x y : Nat} (hx : x < c.width) (hy : y < c.height) :
    pixelOffset c x y + 4 ≤ needOut c := by
  have h : (y + 1) * c.width ≤ c.height * c.width := Nat.mul_le_mul_right _ hy
  rw [Nat.add_mul] at h
  rw [pixelOffset, needOut, Nat.mul_comm c.width]
  omega

/-- Byte `k` of pixel (x, y) and the coordinates its offset gives back (20_memory R42). -/
theorem pixelOffset_coordinates (c : TextureCmd) {x y k : Nat} (hx : x < c.width) (hk : k < 4) :
    (pixelOffset c x y + k) / 4 % c.width = x ∧ (pixelOffset c x y + k) / 4 / c.width = y ∧
      (pixelOffset c x y + k) % 4 = k := by
  have h4 : (pixelOffset c x y + k) / 4 = c.width * y + x := by rw [pixelOffset, Nat.mul_comm c.width]; omega
  have hm : (pixelOffset c x y + k) % 4 = k := by rw [pixelOffset]; omega
  rw [h4, hm, Nat.mul_add_mod, Nat.mod_eq_of_lt hx, Nat.mul_add_div (by omega), Nat.div_eq_of_lt hx]
  exact ⟨rfl, rfl, rfl⟩

/-- Every byte of the output belongs to one pixel of the image (20_memory R42). -/
theorem offset_of_coordinates (c : TextureCmd) {off : Nat} (h : off < needOut c) :
    off / 4 % c.width < c.width ∧ off / 4 / c.width < c.height ∧
      off = pixelOffset c (off / 4 % c.width) (off / 4 / c.width) + off % 4 := by
  have hq : off / 4 < c.height * c.width := by rw [needOut, Nat.mul_comm c.width] at h; omega
  have hw : 0 < c.width := Nat.pos_of_ne_zero fun h0 => by rw [h0] at hq; omega
  refine ⟨Nat.mod_lt _ hw, (Nat.div_lt_iff_lt_mul hw).2 hq, ?_⟩
  have := Nat.div_add_mod' (off / 4) c.width
  rw [pixelOffset, this]
  omega

/-- A pixel of the image lies in a block of the grid (44_gather R180). -/
theorem block_of_pixel (c : TextureCmd) {x y : Nat} (hx : x < c.width) (hy : y < c.height) :
    x / 4 < gridWidth c ∧ y / 4 < gridHeight c := by
  simp only [gridWidth, gridHeight, ceilQuarter]
  omega

/-! The scatter of a block. -/

/-- Pixel `p` of block (col, row) lies inside the image (44_gather R175). -/
def pixelInside (c : TextureCmd) (col row : Nat) (p : Fin 16) : Prop :=
  col * 4 + p.val % 4 < c.width ∧ row * 4 + p.val / 4 < c.height

/-- The address pixel `p` of block (col, row) is stored to. -/
def pixelAddress (c : TextureCmd) (col row : Nat) (p : Fin 16) : Nat :=
  c.outBase + pixelOffset c (col * 4 + p.val % 4) (row * 4 + p.val / 4)

/-- Different pixels of a block are stored to disjoint addresses (20_memory R53). -/
theorem pixelAddress_disjoint {c : TextureCmd} {col row : Nat} {p q : Fin 16} (hp : pixelInside c col row p)
    (hq : pixelInside c col row q) {x : Nat} (h1 : pixelAddress c col row p ≤ x) (h2 : x < pixelAddress c col row p + 4)
    (h3 : pixelAddress c col row q ≤ x) (h4 : x < pixelAddress c col row q + 4) : p = q := by
  unfold pixelAddress at h1 h2 h3 h4
  obtain ⟨a1, a2, -⟩ := pixelOffset_coordinates c (y := row * 4 + p.val / 4) hp.1
    (show x - c.outBase - pixelOffset c (col * 4 + p.val % 4) (row * 4 + p.val / 4) < 4 by omega)
  obtain ⟨b1, b2, -⟩ := pixelOffset_coordinates c (y := row * 4 + q.val / 4) hq.1
    (show x - c.outBase - pixelOffset c (col * 4 + q.val % 4) (row * 4 + q.val / 4) < 4 by omega)
  rw [Nat.add_sub_cancel' (by omega)] at a1 a2 b1 b2
  ext
  omega

/-- What storing the listed pixels of a block does: it never leaves the output, keeps the canonical form, and
writes the four bytes of each listed pixel inside the image and no other byte. -/
theorem storePixels_spec {c : TextureCmd} (hl : needOut c ≤ c.outLen) (col row : Nat) (px : Vector Rgba 16)
    (ps : List (Fin 16)) (hps : ps.Nodup) {m : Memory} (hm : Memory.wf m) :
    ∃ m', storePixels c col row px ps m = some m' ∧ Memory.wf m' ∧
      (∀ p ∈ ps, pixelInside c col row p → ∀ k < 4,
        m'.read (pixelAddress c col row p + k) = (pixelBytes px[p]).getD k 0) ∧
      ∀ x, (∀ p ∈ ps, pixelInside c col row p →
          ¬ (pixelAddress c col row p ≤ x ∧ x < pixelAddress c col row p + 4)) → m'.read x = m.read x := by
  induction ps generalizing m with
  | nil => exact ⟨m, rfl, hm, by simp, fun _ _ => rfl⟩
  | cons p ps ih =>
    obtain ⟨hnot, hps⟩ := List.nodup_cons.1 hps
    by_cases hin : pixelInside c col row p
    · have hb := pixelOffset_bound c hin.1 hin.2
      have hw : memWriteOut c m (pixelOffset c (col * 4 + p.val % 4) (row * 4 + p.val / 4)) (pixelBytes px[p]) =
          some (m.writeBytes (pixelAddress c col row p) (pixelBytes px[p])) := by
        rw [memWriteOut, if_pos (by simpa [pixelBytes] using hb.trans hl)]
        rfl
      have hread := read_writeBytes hm (pixelAddress c col row p) (pixelBytes px[p])
      obtain ⟨m', he, hwf, hat, hoff⟩ := ih hps (wf_writeBytes hm (pixelAddress c col row p) (pixelBytes px[p]))
      refine ⟨m', ?_, hwf, ?_, ?_⟩
      · rw [storePixels]
        refine (if_pos hin).trans ?_
        rw [hw]
        exact he
      · intro q hq hqin k hk
        rcases List.mem_cons.1 hq with rfl | hq
        · rw [hoff, hread, if_pos (by simp only [pixelBytes, List.length_cons, List.length_nil]; omega), Nat.add_sub_cancel_left]
          rintro r hr hrin ⟨h1, h2⟩
          have := pixelAddress_disjoint hin hrin (x := pixelAddress c col row q + k) (by omega) (by omega) h1 h2
          exact hnot (this ▸ hr)
        · exact hat q hq hqin k hk
      · intro x hx
        rw [hoff x fun q hq => hx q (List.mem_cons_of_mem _ hq), hread, if_neg]
        exact hx p (by simp) hin
    · obtain ⟨m', he, hwf, hat, hoff⟩ := ih hps hm
      refine ⟨m', ?_, hwf, ?_, ?_⟩
      · rw [storePixels]
        exact (if_neg hin).trans he
      · intro q hq hqin
        rcases List.mem_cons.1 hq with rfl | hq
        · exact absurd hqin hin
        · exact hat q hq hqin
      · intro x hx
        exact hoff x fun q hq => hx q (List.mem_cons_of_mem _ hq)

/-- What a block step of a legal command does to a block of its grid (44_gather R175): it completes, decodes the
block it read, and stores its pixels that lie inside the image. -/
theorem blockStep_spec {c : TextureCmd} (hl : CommandLegal c) {col row : Nat} (hc : col < gridWidth c)
    (hr : row < gridHeight c) {s : State} (hm : Memory.wf s.mem) :
    ∃ m, blockStep c col row s =
        .next ((s.withBdu (blockRun (decodeBlk (blockAt c s.mem col row)))).withMem m) ∧ Memory.wf m ∧
      (∀ p : Fin 16, pixelInside c col row p → ∀ k < 4, m.read (pixelAddress c col row p + k) =
        (pixelBytes (s.withBdu (blockRun (decodeBlk (blockAt c s.mem col row)))).scratch.pix[p]).getD k 0) ∧
      ∀ x, (∀ p : Fin 16, pixelInside c col row p →
          ¬ (pixelAddress c col row p ≤ x ∧ x < pixelAddress c col row p + 4)) → m.read x = s.mem.read x := by
  obtain ⟨hin, hout⟩ := (lengthError_eq_none c).1 hl.2.2
  have hread : memReadIn c s.mem (blockOffset c col row) 16 =
      some (s.mem.readBytes (c.inBase + blockOffset c col row) 16) :=
    if_pos ((blockOffset_bound c hc hr).trans hin)
  obtain ⟨m, he, hwf, hat, hoff⟩ := storePixels_spec hout col row
    (s.withBdu (blockRun (decodeBlk (blockAt c s.mem col row)))).scratch.pix (List.finRange 16)
    (List.nodup_finRange 16) hm
  refine ⟨m, ?_, hwf, fun p => hat p (List.mem_finRange p), fun x hx => hoff x fun p _ => hx p⟩
  rw [blockStep, hread]
  dsimp only
  rw [blockAt] at he
  rw [State.withBdu_mem, he, blockAt]

end Sys2Proof.Machine
end

