-- ==== Sys2Proof/Laws/Step.lean ====
section
/-! SUPPORT. What one step of the machine can do: its three cases, the host's actions one by one, and the induction
over the lanes of a GSU step. -/

namespace Sys2Proof.Machine

/-! Outcomes. -/

@[simp] theorem andThen_next {α β : Type} (s : α) (f : α → Host.Outcome β Fault Refusal) :
    andThen (.next s) f = f s := rfl
@[simp] theorem andThen_fault {α β : Type} (e : Fault) (f : α → Host.Outcome β Fault Refusal) :
    andThen (.fault e : Host.Outcome α Fault Refusal) f = .fault e := rfl
@[simp] theorem andThen_refused {α β : Type} (e : Refusal) (f : α → Host.Outcome β Fault Refusal) :
    andThen (.refused e : Host.Outcome α Fault Refusal) f = .refused e := rfl

theorem andThen_eq_next {α β : Type} {o : Host.Outcome α Fault Refusal} {f : α → Host.Outcome β Fault Refusal}
    {t : β} : andThen o f = .next t ↔ ∃ u, o = .next u ∧ f u = .next t := by
  cases o <;> simp [andThen]

/-! Who moves. -/

/-- The host takes action `a`, with `rest` left on its script. -/
def HostTakes (s : State) (a : HostAction) (rest : List HostAction) : Prop :=
  s.queue = a :: rest ∧ (a = .wait → s.gsu.state = .idle) ∧ (s.gsu.state = .idle ∨ s.turn.hostFirst = true)

/-- The GSU moves. -/
def GsuTakes (s : State) : Prop := s.gsu.state = .busy ∧ (s.hostReady = false ∨ s.turn.hostFirst = false)

theorem hostReady_iff (s : State) : s.hostReady = true ↔
    ∃ a rest, s.queue = a :: rest ∧ (a = .wait → s.gsu.state = .idle) := by
  unfold State.hostReady
  rcases s.queue with _ | ⟨a, rest⟩
  · simp
  · cases a <;> simp

/-- A step in which the host moves. -/
theorem step_host {s : State} {a : HostAction} {rest : List HostAction} (h : HostTakes s a rest) :
    step s = andThen (hostAct a s.popAction) fun t => .next t.redraw := by
  obtain ⟨hq, hw, ht⟩ := h
  have hr : s.hostReady = true := (hostReady_iff s).2 ⟨a, rest, hq, hw⟩
  have hc : (s.hostReady && (s.gsu.state == .idle || s.turn.hostFirst)) = true := by
    rcases ht with ht | ht <;> simp [hr, ht]
  rw [step, machineMove, if_pos hc, hq]

/-- A step in which the GSU moves. -/
theorem step_gsu {s : State} (h : GsuTakes s) : step s = andThen (gsuMove s) fun t => .next t.redraw := by
  obtain ⟨hb, ht⟩ := h
  have hc : ¬ (s.hostReady && (s.gsu.state == .idle || s.turn.hostFirst)) = true := by
    rcases ht with ht | ht <;> simp [hb, ht]
  rw [step, machineMove, if_neg hc, if_pos (by simp [hb])]

/-- A step in which nobody moves. -/
theorem step_still {s : State} (hi : s.gsu.state = .idle) (hr : s.hostReady = false) : step s = .next s := by
  simp [step, machineMove, hi, hr]

/-- The three cases of a step. -/
theorem move_cases (s : State) :
    (∃ a rest, HostTakes s a rest) ∨ GsuTakes s ∨ s.gsu.state = .idle ∧ s.hostReady = false := by
  cases hr : s.hostReady
  · cases hs : s.gsu.state
    · exact .inr (.inr ⟨rfl, rfl⟩)
    · exact .inr (.inl ⟨hs, .inl hr⟩)
  · obtain ⟨a, rest, hq, hw⟩ := (hostReady_iff s).1 hr
    cases hs : s.gsu.state
    · exact .inl ⟨a, rest, hq, hw, .inl hs⟩
    · cases ht : s.turn.hostFirst
      · exact .inr (.inl ⟨hs, .inr ht⟩)
      · exact .inl ⟨a, rest, hq, hw, .inr ht⟩

/-- Everything a step that answers a next state can have done. -/
theorem step_cases {s t : State} (h : step s = .next t) :
    (∃ a rest u, HostTakes s a rest ∧ hostAct a s.popAction = .next u ∧ t = u.redraw) ∨
    (∃ u, GsuTakes s ∧ gsuMove s = .next u ∧ t = u.redraw) ∨
    (s.gsu.state = .idle ∧ s.hostReady = false ∧ t = s) := by
  rcases move_cases s with ⟨a, rest, hm⟩ | hm | ⟨hi, hr⟩
  · rw [step_host hm, andThen_eq_next] at h
    obtain ⟨u, hu, ht⟩ := h
    exact .inl ⟨a, rest, u, hm, hu, (Host.Outcome.next.inj ht).symm⟩
  · rw [step_gsu hm, andThen_eq_next] at h
    obtain ⟨u, hu, ht⟩ := h
    exact .inr (.inl ⟨u, hm, hu, (Host.Outcome.next.inj ht).symm⟩)
  · rw [step_still hi hr] at h
    exact .inr (.inr ⟨hi, hr, (Host.Outcome.next.inj h).symm⟩)

/-! The host's actions. -/

theorem decodeBytes_of_length {bs : List Byte} (h : bs.length = 16) :
    decodeBytes bs = .ok (decodeBlk (leNat bs)) := if_pos h

theorem decodeBytes_of_length_ne {bs : List Byte} (h : bs.length ≠ 16) :
    decodeBytes bs = .error .notSixteenBytes := if_neg h

/-- DECODE_BLOCK is the BDU on the block, and its pixels given to the host. -/
theorem exec_decodeBlock {bs : List Byte} (h : bs.length = 16) (s : State) :
    exec (.decodeBlock bs) s = .next ((s.withBdu (blockRun (decodeBlk (leNat bs)))).reply
      (.pixels (s.withBdu (blockRun (decodeBlk (leNat bs)))).scratch.pix)) := by
  rw [exec, execDecodeBlock, decodeBytes_of_length h]

theorem exec_decodeBlock_refused {bs : List Byte} (h : bs.length ≠ 16) (s : State) :
    exec (.decodeBlock bs) s = .refused .blockNotSixteenBytes := by
  rw [exec, execDecodeBlock, decodeBytes_of_length_ne h]

/-- A DECODE_TEXTURE answers a next state exactly when the host keeps its duties, and then it is the issue step. -/
theorem exec_decodeTexture_next {c : TextureCmd} {s t : State} :
    exec (.decodeTexture c) s = .next t ↔
      s.gsu.state = .idle ∧ c.dimsFit = true ∧ buffersOverlap c = false ∧ t = s.issue c := by
  rw [exec, execDecodeTexture]
  generalize s.issue c = u
  cases hs : s.gsu.state <;> cases hd : c.dimsFit <;> cases ho : buffersOverlap c <;> simp [eq_comm]

/-- A host write that touches no used range of a running transaction. -/
theorem hostWrite_of_free {addr : Nat} {bs : List Byte} {s : State}
    (h : ∀ k < bs.length, s.claimed (addr + k) = false) :
    hostWrite addr bs s = .next (s.withMem (s.mem.writeBytes addr bs)) := by
  refine if_neg ?_
  simpa using h

/-- A host write that touches a used range of a running transaction (70_reset R215). -/
theorem hostWrite_of_claimed {addr k : Nat} {bs : List Byte} {s : State} (hk : k < bs.length)
    (h : s.claimed (addr + k) = true) : hostWrite addr bs s = .refused .hostWriteWhileBusy := by
  refine if_pos ?_
  simp only [List.any_eq_true, List.mem_range]
  exact ⟨k, hk, h⟩

/-- While BUSY the bytes of the used ranges are claimed. -/
theorem claimed_of_busy {s : State} {c : TextureCmd} (hb : s.gsu.state = .busy) (hc : s.gsu.cmd = some c) (a : Nat) :
    s.claimed a = (inUsed c a || outUsed c a) := by
  simp [State.claimed, hb, hc]

theorem outputInFlux_of_busy {s : State} {c : TextureCmd} (hb : s.gsu.state = .busy) (hc : s.gsu.cmd = some c)
    (a : Nat) : s.outputInFlux a = outUsed c a := by
  simp [State.outputInFlux, hb, hc]

theorem outputInFlux_of_idle {s : State} (hi : s.gsu.state = .idle) (a : Nat) : s.outputInFlux a = false := by
  simp [State.outputInFlux, hi]

theorem memAfterReset_of_idle {s : State} (hi : s.gsu.state = .idle) : s.memAfterReset = s.mem := by
  simp [State.memAfterReset, hi]

theorem memAfterReset_of_busy {s : State} {c : TextureCmd} (hb : s.gsu.state = .busy) (hc : s.gsu.cmd = some c) :
    s.memAfterReset =
      s.mem.writeBytes c.outBase ((List.range (needOut c)).map (abandonedByte s.draws c s.gsu.before)) := by
  simp [State.memAfterReset, hb, hc]

/-! The lanes of a GSU step. -/

/-- At least one lane fires, and at most LANES (44_gather R176). -/
theorem lanesFiring_bounds (t : Turn) : 1 ≤ lanesFiring t ∧ lanesFiring t ≤ Config.lanes := by
  simp only [lanesFiring, Config.lanes]
  omega

/-- What every lane of a GSU step keeps, the step keeps: `R i s` says that `s` may stand after `i` block steps. -/
theorem blockSteps_induction {c : TextureCmd} (R : Nat → State → Prop)
    (hstep : ∀ (i : Nat) (s : State) (k : Nat) (hk : k < s.gsu.pending.length), R i s →
      ∃ t, blockStep c s.gsu.pending[k].1 s.gsu.pending[k].2 (s.dropPending k) = .next t ∧ R (i + 1) t)
    (n pick i : Nat) (s : State) (h : R i s) :
    ∃ j t, j ≤ n ∧ (j = n ∨ t.gsu.pending = []) ∧ blockSteps c n pick s = .next t ∧ R (i + j) t := by
  induction n generalizing pick i s with
  | zero => exact ⟨0, s, le_rfl, .inl rfl, rfl, h⟩
  | succ n ih =>
    rcases hp : s.gsu.pending with _ | ⟨q, qs⟩
    · exact ⟨0, s, Nat.zero_le _, .inr hp, by simp [blockSteps, hp], h⟩
    · have hk : pick % (qs.length + 1) < s.gsu.pending.length := by
        rw [hp, List.length_cons]
        exact Nat.mod_lt _ (by omega)
      obtain ⟨t, ht, hR⟩ := hstep i s _ hk h
      obtain ⟨j, u, hj, hend, hu, hRu⟩ := ih (pick / (qs.length + 1)) (i + 1) t hR
      refine ⟨j + 1, u, by omega, hend.imp_left (congrArg (· + 1)), ?_, by rw [Nat.add_right_comm] at hRu; exact hRu⟩
      have hb : (q :: qs).getD (pick % (qs.length + 1)) q = s.gsu.pending[pick % (qs.length + 1)] := by
        rw [List.getD_eq_getElem _ _ (by rw [← hp]; exact hk)]
        simp [hp]
      simp only [blockSteps, hp]
      rw [hb, ht, andThen_next, hu]

/-! What a step of a BUSY GSU leaves alone, with no premise. -/

theorem blockStep_frame {c : TextureCmd} {col row : Nat} {s t : State} (h : blockStep c col row s = .next t) :
    t.gsu = s.gsu ∧ t.queue = s.queue ∧ t.replies = s.replies ∧ t.turn = s.turn := by
  unfold blockStep at h
  split at h
  · cases h
  · dsimp only at h
    split at h
    · cases h
    · cases h
      exact ⟨rfl, rfl, rfl, rfl⟩

theorem blockSteps_frame {c : TextureCmd} {n pick : Nat} {s t : State} (h : blockSteps c n pick s = .next t) :
    t.gsu.state = s.gsu.state ∧ t.gsu.cmd = s.gsu.cmd ∧ t.gsu.status = s.gsu.status ∧
      t.gsu.before = s.gsu.before ∧ t.queue = s.queue ∧ t.replies = s.replies ∧ t.turn = s.turn := by
  induction n generalizing pick s with
  | zero =>
    cases h
    simp
  | succ n ih =>
    rw [blockSteps] at h
    split at h
    · cases h
      simp
    · dsimp only at h
      rw [andThen_eq_next] at h
      obtain ⟨u, hu, h⟩ := h
      obtain ⟨a1, a2, a3, a4⟩ := blockStep_frame hu
      obtain ⟨b1, b2, b3, b4, b5, b6, b7⟩ := ih h
      rw [a1] at b1 b2 b3 b4
      exact ⟨b1, b2, b3, b4, b5.trans a2, b6.trans a3, b7.trans a4⟩

/-- Everything a step of a BUSY GSU can have done: completion, or block steps of its command. -/
theorem gsuMove_cases {s t : State} (h : gsuMove s = .next t) :
    (s.gsu.pending = [] ∧ t = s.complete) ∨
    (s.gsu.pending ≠ [] ∧ ∃ c, s.gsu.cmd = some c ∧ blockSteps c (lanesFiring s.turn) s.turn.pick s = .next t) := by
  unfold gsuMove at h
  split at h
  · cases h
  · rename_i c hc
    split at h
    · rename_i hp
      cases h
      exact .inl ⟨hp, rfl⟩
    · rename_i hp
      exact .inr ⟨by simp [hp], c, hc, h⟩

/-- What a host action can do to the GSU registers: nothing, a reset, or the issue step. -/
theorem hostAct_gsu {s t : State} {a : HostAction} (h : hostAct a s = .next t) :
    t.gsu = s.gsu ∨ (a = .reset ∧ t.gsu = Gsu.reset) ∨
      ∃ c, a = .decodeTexture c ∧ s.gsu.state = .idle ∧ t = s.issue c := by
  cases a with
  | decodeBlock bs =>
    have h : exec (.decodeBlock bs) s = .next t := h
    by_cases hl : bs.length = 16
    · rw [exec_decodeBlock hl] at h
      cases h
      exact .inl rfl
    · rw [exec_decodeBlock_refused hl] at h
      cases h
  | decodeTexture c =>
    obtain ⟨hi, -, -, rfl⟩ := exec_decodeTexture_next.1 h
    exact .inr (.inr ⟨c, rfl, hi, rfl⟩)
  | write addr bs =>
    simp only [hostAct, hostWrite] at h
    split at h <;> cases h
    exact .inl rfl
  | reset =>
    cases h
    exact .inr (.inl ⟨rfl, rfl⟩)
  | wait =>
    cases h
    exact .inl rfl
  | read base lo hi =>
    cases h
    exact .inl rfl
  | poll =>
    cases h
    exact .inl rfl

/-! Runs. -/

theorem run_zero (s : State) : core.run 0 s = .next s := rfl

theorem run_succ_of_next {s t : State} (h : step s = .next t) (k : Nat) : core.run (k + 1) s = core.run k t := by
  have h' : core.step s = .next t := h
  refine (Host.Core.run.eq_def core (k + 1) s).trans ?_
  dsimp only
  rw [h']

end Sys2Proof.Machine
end

