-- ==== Sys2Proof/Laws/Invariant.lean ====
section
/-! SUPPORT. How the invariant of Safety.lean is met: by an IDLE GSU, by the issue step, and what it gives a BUSY GSU. -/

namespace Sys2Proof.Machine
open Memory

/-- A state with the same memory and GSU registers meets the invariant as long as its cursor is in range. -/
theorem Inv.of_same {s t : State} (h : Inv s) (hm : t.mem = s.mem) (hc : t.scratch.cur.toNat ≤ 128)
    (hg : t.gsu = s.gsu) : Inv t := by
  refine ⟨by rw [hm]; exact h.memory, hc, by rw [hg]; exact h.gsu, ?_⟩
  intro c
  rw [hg, hm]
  exact h.buffers c

/-- An IDLE GSU with no command meets the invariant, with any status. -/
theorem Inv.of_idle {s : State} {e : Status} (hm : Memory.wf s.mem) (hc : s.scratch.cur.toNat ≤ 128)
    (hg : s.gsu = ⟨.idle, none, [], e, []⟩) : Inv s := by
  refine ⟨hm, hc, by rw [hg]; exact ⟨rfl, rfl, rfl⟩, ?_⟩
  intro c hb
  rw [hg] at hb
  cases hb

theorem Inv.redraw {s : State} (h : Inv s) : Inv s.redraw := h.of_same rfl h.cursor rfl

theorem Inv.popAction {s : State} (h : Inv s) : Inv s.popAction := h.of_same rfl h.cursor rfl

theorem Inv.complete {s : State} (h : Inv s) : Inv s.complete := .of_idle h.memory h.cursor rfl

/-- Right after the issue step every byte of the output is old and its block pending. -/
theorem Inv.issue {s : State} {c : TextureCmd} (h : Inv s) (hd : c.dimsFit = true) (ho : buffersOverlap c = false) :
    Inv (s.issue c) := by
  have hg := s.issue_gsu c
  rcases hl : lengthError c with _ | e
  · rw [hl] at hg
    refine ⟨by simpa using h.memory, by simpa using h.cursor, ?_, ?_⟩
    · rw [hg]
      exact ⟨c, rfl, ⟨hd, ho, hl⟩, List.Sublist.refl _, h.memory⟩
    · intro c' _ hc'
      rw [hg] at hc'
      cases hc'
      rw [hg, State.issue_mem]
      refine ⟨fun _ _ => rfl, fun _ _ _ => rfl, fun off ho hn => absurd ?_ hn⟩
      obtain ⟨hx, hy, -⟩ := offset_of_coordinates c ho
      exact (mem_blockGrid c _).2 (block_of_pixel c hx hy)
  · rw [hl] at hg
    exact .of_idle (by simpa using h.memory) (by simpa using h.cursor) hg

/-- What the invariant gives a BUSY GSU. -/
theorem Inv.busy {s : State} (h : Inv s) (hb : s.gsu.state = .busy) : ∃ c, s.gsu.cmd = some c ∧ CommandLegal c ∧
    s.gsu.pending.Sublist (blockGrid c) ∧ Memory.wf s.gsu.before := by
  have hg := h.gsu
  unfold GsuInv at hg
  rw [hb] at hg
  exact hg

/-- The image of a transaction is a function of its input alone (44_gather R175). -/
theorem imageByte_congr {c : TextureCmd} {m m' : Memory} (h : ∀ a, inUsed c a = true → m.read a = m'.read a)
    {off : Nat} (ho : off < needOut c) : imageByte c m off = imageByte c m' off := by
  obtain ⟨hx, hy, -⟩ := offset_of_coordinates c ho
  obtain ⟨hc, hr⟩ := block_of_pixel c hx hy
  have hb := blockOffset_bound c hc hr
  have hblk : blockAt c m (off / 4 % c.width / 4) (off / 4 / c.width / 4) =
      blockAt c m' (off / 4 % c.width / 4) (off / 4 / c.width / 4) := by
    unfold blockAt
    rw [readBytes_congr (m' := m')]
    intro x h1 h2
    exact h x ((inUsed_iff _ _).2 (by omega))
  unfold imageByte imagePixel
  rw [hblk]

end Sys2Proof.Machine
end

