-- ==== Sys2Proof/Laws/PerInstr.lean ====
section
/-! SUPPORT. The statements made once per constructor of Instr. Family Opcode: the first byte of an instruction's
encoding carries the match under the mask of the instruction's row of spec/opcode_table.json (30_encoding R73); the
two host transactions have no encoding (R77). -/

namespace Sys2Proof.Laws.Opcode

/-- The match and the mask on byte 0 of the instruction's row, none for a host transaction. -/
def row : Instr → Option (Nat × Nat)
  | .decodeM0 _ => some (0x01, 0x01)
  | .decodeM1 _ => some (0x02, 0x03)
  | .decodeM2 _ => some (0x04, 0x07)
  | .decodeM3 _ => some (0x08, 0x0F)
  | .decodeM4 _ => some (0x10, 0x1F)
  | .decodeM5 _ => some (0x20, 0x3F)
  | .decodeM6 _ => some (0x40, 0x7F)
  | .decodeM7 _ => some (0x80, 0xFF)
  | .decodeInv => some (0x00, 0xFF)
  | .decodeBlock _ => none
  | .decodeTexture _ => none

/-- What the row of an instruction says of its encoding. -/
def Statement (i : Instr) : Prop :=
  match row i with
  | some (mtch, mask) => ∃ b rest, encode i = some (b :: rest) ∧ b.toNat &&& mask = mtch
  | none => encode i = none

/-- The first byte of a block of mode `m`: `m` zero bits, then a one (30_encoding R76). -/
theorem first_byte (m : Mode) (f : BlockFields) :
    (BitVec.ofNat 8 (encodeBlk (.mode m f))).toNat &&& (2 ^ (m.number + 1) - 1) = 2 ^ m.number := by
  have hm : m.number < 8 := by cases m <;> decide
  have hlt : 2 ^ m.number < 2 ^ (m.number + 1) := Nat.pow_lt_pow_right (by norm_num) (by omega)
  have hd : 2 ^ (m.number + 1) ∣ 2 ^ 8 := Nat.pow_dvd_pow 2 (by omega)
  rw [Nat.and_two_pow_sub_one_eq_mod, BitVec.toNat_ofNat, Nat.mod_mod_of_dvd _ hd, encodeBlk, pack,
    Nat.add_mul_mod_self_left, Nat.mod_eq_of_lt hlt]

theorem decodeM0 (f : BlockFields) : Statement (.decodeM0 f) := ⟨_, _, rfl, first_byte .m0 f⟩
theorem decodeM1 (f : BlockFields) : Statement (.decodeM1 f) := ⟨_, _, rfl, first_byte .m1 f⟩
theorem decodeM2 (f : BlockFields) : Statement (.decodeM2 f) := ⟨_, _, rfl, first_byte .m2 f⟩
theorem decodeM3 (f : BlockFields) : Statement (.decodeM3 f) := ⟨_, _, rfl, first_byte .m3 f⟩
theorem decodeM4 (f : BlockFields) : Statement (.decodeM4 f) := ⟨_, _, rfl, first_byte .m4 f⟩
theorem decodeM5 (f : BlockFields) : Statement (.decodeM5 f) := ⟨_, _, rfl, first_byte .m5 f⟩
theorem decodeM6 (f : BlockFields) : Statement (.decodeM6 f) := ⟨_, _, rfl, first_byte .m6 f⟩
theorem decodeM7 (f : BlockFields) : Statement (.decodeM7 f) := ⟨_, _, rfl, first_byte .m7 f⟩
theorem decodeInv : Statement .decodeInv := ⟨_, _, rfl, rfl⟩
theorem decodeBlock (block : List Byte) : Statement (.decodeBlock block) := by rfl
theorem decodeTexture (cmd : TextureCmd) : Statement (.decodeTexture cmd) := by rfl

end Sys2Proof.Laws.Opcode
end

