-- ==== Sys2Proof/Tests/Slice0.lean ====
section
/-! SUPPORT. Tests: expected values are those of spec/95_test_vectors.md and of the rules named, worked out by hand from
them; and for each obligation with hypotheses a witness that meets them. -/

namespace Sys2Proof.Tests
open Sys2Proof.Machine Sys2Proof.Claims

/-! Helpers. -/

/-- A pixel written as four numbers. -/
def px (r g b a : Nat) : Rgba := ⟨BitVec.ofNat 8 r, BitVec.ofNat 8 g, BitVec.ofNat 8 b, BitVec.ofNat 8 a⟩

/-- A value read off the next state, if there is one. -/
def look {α : Type} (o : Host.Outcome State Fault Refusal) (f : State → α) : Option α :=
  match o with
  | .next t => some (f t)
  | .fault _ => none
  | .refused _ => none

/-- The refusal, if there is one. -/
def refusal (o : Host.Outcome State Fault Refusal) : Option Refusal :=
  match o with
  | .refused r => some r
  | .next _ => none
  | .fault _ => none

/-- The reset state with this memory and script. -/
def start (m : Memory) (q : List HostAction) : State := { State.reset with mem := m, queue := q }

/-! Decode: the words of 95_test_vectors V-M0 to V-M7, V-M4r, V-M6b, V-INV and V-INVJ, each both ways. -/

def wordM0 : List Byte := bytes [0x01, 0xFE, 0x1F, 0x00, 0x1E, 0x00, 0x00, 0x1E, 0xE0, 0xDF, 0xE1, 0x9B, 0xD8, 0x00, 0x00, 0x00]
def fieldsM0 : BlockFields :=
  { red := [0, 15, 15, 15, 0, 0], green := [0, 15, 0, 0, 0, 0], blue := [0, 15, 0, 0, 15, 15], uniqueP := [0, 1, 1, 1, 0, 0], idx := [0, 7, 3, 3, 4, 0, 3, 3, 0, 0, 0, 0, 0, 0, 0, 0] }
theorem test_decode_m0 : decode wordM0 = .ok (.decodeM0 fieldsM0) ∧ encode (.decodeM0 fieldsM0) = some wordM0 := by
  decide

def wordM1 : List Byte := bytes [0x36, 0xC0, 0xFF, 0xFF, 0xC0, 0x0F, 0x00, 0xC0, 0x0F, 0x00, 0x12, 0x8D, 0xF5, 0x93, 0x24, 0x49]
def fieldsM1 : BlockFields :=
  { part := 13, red := [0, 63, 63, 63], green := [0, 63, 0, 0], blue := [0, 63, 0, 0], sharedP := [0, 1], idx := [0, 1, 2, 3, 4, 5, 6, 7, 1, 1, 1, 1, 1, 1, 1, 1] }
theorem test_decode_m1 : decode wordM1 = .ok (.decodeM1 fieldsM1) ∧ encode (.decodeM1 fieldsM1) = some wordM1 := by
  decide

def wordM2 : List Byte := bytes [0x44, 0xFE, 0x07, 0x00, 0x00, 0x00, 0xFE, 0x07, 0x00, 0x00, 0x00, 0xFE, 0x97, 0x93, 0xCF, 0xC9]
def fieldsM2 : BlockFields :=
  { part := 8, red := [31, 31, 0, 0, 0, 0], green := [0, 0, 31, 31, 0, 0], blue := [0, 0, 0, 0, 31, 31], idx := [0, 1, 2, 3, 0, 1, 2, 3, 1, 1, 2, 3, 0, 1, 2, 1] }
theorem test_decode_m2 : decode wordM2 = .ok (.decodeM2 fieldsM2) ∧ encode (.decodeM2 fieldsM2) = some wordM2 := by
  decide

def wordM3 : List Byte := bytes [0xF8, 0x00, 0xFE, 0x0A, 0x0A, 0xE0, 0xEF, 0x41, 0x01, 0xFE, 0x32, 0x9E, 0xC9, 0xC9, 0xC9, 0xAB]
def fieldsM3 : BlockFields :=
  { part := 15, red := [0, 127, 10, 20], green := [0, 127, 30, 40], blue := [0, 127, 50, 60], uniqueP := [0, 1, 1, 0], idx := [0, 1, 2, 3, 0, 1, 2, 3, 0, 1, 2, 3, 1, 1, 1, 1] }
theorem test_decode_m3 : decode wordM3 = .ok (.decodeM3 fieldsM3) ∧ encode (.decodeM3 fieldsM3) = some wordM3 := by
  decide

def wordM4 : List Byte := bytes [0xB0, 0xE0, 0x83, 0x0F, 0x3E, 0xF0, 0xCB, 0xC9, 0xC9, 0xC9, 0x89, 0xC6, 0xFA, 0x77, 0x39, 0x05]
def fieldsM4 : BlockFields :=
  { rot := 1, isel := 1, red := [0, 31], green := [0, 31], blue := [0, 31], alpha := [0, 63], idx := [0, 1, 2, 3, 0, 1, 2, 3, 0, 1, 2, 3, 0, 1, 2, 3], idx2 := [0, 1, 2, 3, 4, 5, 6, 7, 7, 6, 5, 4, 3, 2, 1, 0] }
theorem test_decode_m4 : decode wordM4 = .ok (.decodeM4 fieldsM4) ∧ encode (.decodeM4 fieldsM4) = some wordM4 := by
  decide

def wordM5 : List Byte := bytes [0xA0, 0x7F, 0x00, 0xE0, 0x0F, 0x04, 0xFE, 0x03, 0xC8, 0xC9, 0xC9, 0xC9, 0x6D, 0x6C, 0x6C, 0x6C]
def fieldsM5 : BlockFields :=
  { rot := 2, red := [127, 0], green := [0, 127], blue := [64, 64], alpha := [255, 0], idx := [0, 1, 2, 3, 0, 1, 2, 3, 0, 1, 2, 3, 0, 1, 2, 3], idx2 := [0, 3, 2, 1, 0, 3, 2, 1, 0, 3, 2, 1, 0, 3, 2, 1] }
theorem test_decode_m5 : decode wordM5 = .ok (.decodeM5 fieldsM5) ∧ encode (.decodeM5 fieldsM5) = some wordM5 := by
  decide

def wordM6 : List Byte := bytes [0x40, 0xC0, 0x1F, 0xF0, 0x07, 0xFC, 0xFF, 0x00, 0x11, 0x32, 0x54, 0x76, 0x98, 0xBA, 0xDC, 0xFE]
def fieldsM6 : BlockFields :=
  { red := [0, 127], green := [0, 127], blue := [0, 127], alpha := [127, 0], uniqueP := [0, 1], idx := [0, 1, 2, 3, 4, 5, 6, 7, 8, 9, 10, 11, 12, 13, 14, 15] }
theorem test_decode_m6 : decode wordM6 = .ok (.decodeM6 fieldsM6) ∧ encode (.decodeM6 fieldsM6) = some wordM6 := by
  decide

def wordM7 : List Byte := bytes [0x80, 0xC1, 0xFF, 0xE0, 0x03, 0x00, 0x3E, 0x00, 0xFF, 0xFF, 0x0F, 0xFE, 0x82, 0x01, 0x81, 0x00]
def fieldsM7 : BlockFields :=
  { part := 1, red := [31, 31, 0, 31], green := [0, 0, 0, 31], blue := [0, 0, 31, 31], alpha := [31, 31, 0, 31], uniqueP := [1, 1, 0, 1], idx := [0, 0, 0, 3, 0, 0, 0, 2, 0, 0, 0, 1, 0, 0, 0, 0] }
theorem test_decode_m7 : decode wordM7 = .ok (.decodeM7 fieldsM7) ∧ encode (.decodeM7 fieldsM7) = some wordM7 := by
  decide

def zeroWord : List Byte := bytes (List.replicate 16 0)
theorem test_decode_inv : decode zeroWord = .ok .decodeInv ∧ encode .decodeInv = some zeroWord ∧
    decode (bytes (0x00 :: List.replicate 15 0xA5)) = .ok .decodeInv := by decide

theorem test_decode_rejects_by_name : decode (bytes (List.replicate 15 0)) = .error .notSixteenBytes ∧
    decode (bytes (List.replicate 17 1)) = .error .notSixteenBytes ∧ decode [] = .error .notSixteenBytes := by decide

/-- V-MD: the mode of byte 0, whatever bytes 1 to 15. -/
theorem test_mode_detection :
    [0x00, 0x01, 0x02, 0x04, 0x08, 0x10, 0x20, 0x40, 0x80, 0xFF, 0x06, 0xC0, 0xB0, 0xA0].map modeDetect =
    [none, some .m0, some .m1, some .m2, some .m3, some .m4, some .m5, some .m6, some .m7, some .m0, some .m1,
      some .m6, some .m4, some .m5] ∧ modeDetect (0xFF * 256) = none := by decide

/-- The first step after reset runs the word that withFetchWord places (the nine rows of the opcode table). -/
theorem test_fetch_word :
    [0x00, 0x01, 0x02, 0x04, 0x08, 0x10, 0x20, 0x40, 0x80].map
      (fun w => look (step (State.reset.withFetchWord 128 w)) fun t => (t.scratch.mode, t.replies.length)) =
    [some (.invalid, 1), some (.valid .m0, 1), some (.valid .m1, 1), some (.valid .m2, 1), some (.valid .m3, 1),
      some (.valid .m4, 1), some (.valid .m5, 1), some (.valid .m6, 1), some (.valid .m7, 1)] := by decide

theorem test_table_word :
    decodeTableWord 128 (leNat wordM4) = some (.decodeM4 fieldsM4) ∧ decodeTableWord 8 0 = some .decodeInv ∧
    decodeTableWord 136 0 = none := by decide

/-! WellFormed: each check refuses an ill-formed term. -/

theorem test_wf_accepts :
    (Instr.decodeM0 fieldsM0).wf = true ∧ (Instr.decodeM1 fieldsM1).wf = true ∧ (Instr.decodeM2 fieldsM2).wf = true ∧
    (Instr.decodeM3 fieldsM3).wf = true ∧ (Instr.decodeM4 fieldsM4).wf = true ∧ (Instr.decodeM5 fieldsM5).wf = true ∧
    (Instr.decodeM6 fieldsM6).wf = true ∧ (Instr.decodeM7 fieldsM7).wf = true := by decide
/-- Mode 0's partition id has 4 bits. -/
theorem test_wf_part : (Instr.decodeM0 { fieldsM0 with part := 16 }).wf = false ∧
    BlockFields.partFits .m0 { fieldsM0 with part := 16 } = false := by decide
theorem test_wf_rot : (Instr.decodeM4 { fieldsM4 with rot := 4 }).wf = false ∧
    BlockFields.rotFits .m4 { fieldsM4 with rot := 4 } = false := by decide
/-- Mode 5 has no index selector. -/
theorem test_wf_isel : (Instr.decodeM5 { fieldsM5 with isel := 1 }).wf = false ∧
    BlockFields.iselFits .m5 { fieldsM5 with isel := 1 } = false := by decide
theorem test_wf_colour : (Instr.decodeM2 { fieldsM2 with green := [0, 0, 32, 31, 0, 0] }).wf = false ∧
    BlockFields.colourFits .m2 { fieldsM2 with green := [0, 0, 32, 31, 0, 0] } = false := by decide
/-- Modes 0 to 3 have no alpha endpoints. -/
theorem test_wf_alpha : (Instr.decodeM3 { fieldsM3 with alpha := [0, 0, 0, 0] }).wf = false ∧
    BlockFields.alphaFits .m3 { fieldsM3 with alpha := [0, 0, 0, 0] } = false := by decide
theorem test_wf_unique_p : (Instr.decodeM6 { fieldsM6 with uniqueP := [0, 2] }).wf = false ∧
    BlockFields.uniquePFits .m6 { fieldsM6 with uniqueP := [0, 2] } = false := by decide
theorem test_wf_shared_p : (Instr.decodeM1 { fieldsM1 with sharedP := [0, 1, 1] }).wf = false ∧
    BlockFields.sharedPFits .m1 { fieldsM1 with sharedP := [0, 1, 1] } = false := by decide
/-- Pixel 15 is subset 1's anchor in partition 1: its index has one bit. -/
theorem test_wf_idx : (Instr.decodeM7 { fieldsM7 with idx := [0, 0, 0, 3, 0, 0, 0, 2, 0, 0, 0, 1, 0, 0, 0, 2] }).wf = false ∧
    BlockFields.idxFits .m7 { fieldsM7 with idx := [0, 0, 0, 3, 0, 0, 0, 2, 0, 0, 0, 1, 0, 0, 0, 2] } = false := by decide
/-- Pixel 0 is the secondary stream's anchor: its index has one bit less. -/
theorem test_wf_idx2 : (Instr.decodeM5 { fieldsM5 with idx2 := [2, 3, 2, 1, 0, 3, 2, 1, 0, 3, 2, 1, 0, 3, 2, 1] }).wf = false ∧
    BlockFields.idx2Fits .m5 { fieldsM5 with idx2 := [2, 3, 2, 1, 0, 3, 2, 1, 0, 3, 2, 1, 0, 3, 2, 1] } = false := by decide
theorem test_wf_block : (Instr.decodeBlock (bytes [1, 2, 3])).wf = false ∧ (Instr.decodeBlock zeroWord).wf = true := by decide
theorem test_wf_texture : (Instr.decodeTexture ⟨0, 0, 2 ^ 32, 0, 0, 0⟩).wf = false ∧
    (Instr.decodeTexture ⟨0, 0, 0, 2 ^ 32, 0, 0⟩).wf = false ∧
    (Instr.decodeTexture ⟨0, 0, 2 ^ 32 - 1, 2 ^ 32 - 1, 0, 0⟩).wf = true := by decide

/-! Tables and arithmetic. -/

/-- The 16-bit masks of PARTITION2 (42_partition R132), recalled apart from the digit rows (R137 item 5). -/
def partition2Masks : List Nat :=
  [0xCCCC, 0x8888, 0xEEEE, 0xECC8, 0xC880, 0xFEEC, 0xFEC8, 0xEC80, 0xC800, 0xFFEC, 0xFE80, 0xE800, 0xFFE8, 0xFF00, 0xFFF0, 0xF000]
  ++ [0xF710, 0x008E, 0x7100, 0x08CE, 0x008C, 0x7310, 0x3100, 0x8CCE, 0x088C, 0x3110, 0x6666, 0x366C, 0x17E8, 0x0FF0, 0x718E, 0x399C]
  ++ [0xAAAA, 0xF0F0, 0x5A5A, 0x33CC, 0x3C3C, 0x55AA, 0x9696, 0xA55A, 0x73CE, 0x13C8, 0x324C, 0x3BDC, 0x6996, 0xC33C, 0x9966, 0x0660]
  ++ [0x0272, 0x04E4, 0x4E40, 0x2720, 0xC936, 0x936C, 0x39C6, 0x639C, 0x9336, 0x9CC6, 0x817E, 0xE718, 0xCCF0, 0x0FCC, 0x7744, 0xEE22]
theorem test_partition2_masks : ∀ part < 64, ∀ p < 16,
    subsetOf 2 part p = partition2Masks.getD part 0 / 2 ^ p % 2 := by decide
/-- V-PART: anchors. -/
theorem test_anchors : [0, 1, 13, 15, 34, 63].map (anchors 2) = [[0, 15], [0, 15], [0, 15], [0, 15], [0, 6], [0, 15]] ∧
    [0, 1, 8, 15, 16, 63].map (anchors 3) = [[0, 3, 15], [0, 3, 8], [0, 8, 15], [0, 3, 8], [0, 3, 15], [0, 3, 8]] := by decide
/-- V-EXP: corner values. -/
theorem test_expand : [expand 1 5, expand 1 6, expand 1 7, expand 1 8, expand 30 5, expand 62 6, expand 126 7, expand 254 8,
    expand 17 5, expand 33 6, expand 64 7] = [8, 4, 2, 1, 247, 251, 253, 254, 140, 134, 129] := by decide
/-- V-INT: ties round up; symmetry. -/
theorem test_interp : [interp 7 8 32, interp 8 7 32, interp 1 0 32, interp 254 255 32, interp 0 255 21, interp 255 0 43,
    interp 100 200 21, interp 3 4 21] = [8, 8, 1, 255, 84, 84, 133, 3] := by decide
/-- 10_state R25: the numeric status codes. -/
theorem test_status_codes : [Status.none, .ok, .inputTooShort, .outputTooShort].map Status.code =
    [none, some 0, some 1, some 2] := by decide

/-! The block formats: the pixels of the vectors, through exec, from the reset state. -/

theorem test_pixels_m0 : look (exec (.decodeM0 fieldsM0) State.reset) (fun t => t.scratch.pix.toList) = some
    [px 0 0 0 255, px 255 255 255 255, px 255 8 8 255, px 255 8 8 255,
     px 147 147 147 255, px 0 0 0 255, px 255 8 8 255, px 255 8 8 255,
     px 0 0 0 255, px 0 0 247 255, px 0 0 247 255, px 255 8 8 255,
     px 0 0 247 255, px 0 0 247 255, px 0 0 247 255, px 0 0 247 255] := by
  decide

theorem test_pixels_m1 : look (exec (.decodeM1 fieldsM1) State.reset) (fun t => t.scratch.pix.toList) = some
    [px 0 0 0 255, px 36 36 36 255, px 71 71 71 255, px 107 107 107 255,
     px 146 146 146 255, px 182 182 182 255, px 217 217 217 255, px 253 253 253 255,
     px 255 2 2 255, px 255 2 2 255, px 255 2 2 255, px 255 2 2 255,
     px 255 2 2 255, px 255 2 2 255, px 255 2 2 255, px 255 2 2 255] := by
  decide

theorem test_pixels_m2 : look (exec (.decodeM2 fieldsM2) State.reset) (fun t => t.scratch.pix.toList) = some
    [px 255 0 0 255, px 255 0 0 255, px 255 0 0 255, px 255 0 0 255,
     px 255 0 0 255, px 255 0 0 255, px 255 0 0 255, px 255 0 0 255,
     px 0 255 0 255, px 0 255 0 255, px 0 255 0 255, px 0 255 0 255,
     px 0 0 255 255, px 0 0 255 255, px 0 0 255 255, px 0 0 255 255] := by
  decide

theorem test_pixels_m3 : look (exec (.decodeM3 fieldsM3) State.reset) (fun t => t.scratch.pix.toList) = some
    [px 0 0 0 255, px 84 84 84 255, px 171 171 171 255, px 255 255 255 255,
     px 0 0 0 255, px 84 84 84 255, px 171 171 171 255, px 255 255 255 255,
     px 0 0 0 255, px 84 84 84 255, px 171 171 171 255, px 255 255 255 255,
     px 27 67 107 255, px 27 67 107 255, px 27 67 107 255, px 27 67 107 255] := by
  decide

theorem test_pixels_m4 : look (exec (.decodeM4 fieldsM4) State.reset) (fun t => t.scratch.pix.toList) = some
    [px 0 0 0 0, px 84 36 36 36, px 171 72 72 72, px 255 108 108 108,
     px 0 147 147 147, px 84 183 183 183, px 171 219 219 219, px 255 255 255 255,
     px 0 255 255 255, px 84 219 219 219, px 171 183 183 183, px 255 147 147 147,
     px 0 108 108 108, px 84 72 72 72, px 171 36 36 36, px 255 0 0 0] := by
  decide

theorem test_pixels_m5 : look (exec (.decodeM5 fieldsM5) State.reset) (fun t => t.scratch.pix.toList) = some
    [px 255 255 129 0, px 171 0 129 84, px 84 84 129 171, px 0 171 129 255,
     px 255 255 129 0, px 171 0 129 84, px 84 84 129 171, px 0 171 129 255,
     px 255 255 129 0, px 171 0 129 84, px 84 84 129 171, px 0 171 129 255,
     px 255 255 129 0, px 171 0 129 84, px 84 84 129 171, px 0 171 129 255] := by
  decide

theorem test_pixels_m6 : look (exec (.decodeM6 fieldsM6) State.reset) (fun t => t.scratch.pix.toList) = some
    [px 0 0 0 254, px 16 16 16 238, px 36 36 36 218, px 52 52 52 203,
     px 68 68 68 187, px 84 84 84 171, px 104 104 104 151, px 120 120 120 135,
     px 135 135 135 120, px 151 151 151 104, px 171 171 171 84, px 187 187 187 68,
     px 203 203 203 52, px 219 219 219 37, px 239 239 239 17, px 255 255 255 1] := by
  decide

theorem test_pixels_m7 : look (exec (.decodeM7 fieldsM7) State.reset) (fun t => t.scratch.pix.toList) = some
    [px 255 4 4 255, px 255 4 4 255, px 255 4 4 255, px 255 255 255 255,
     px 255 4 4 255, px 255 4 4 255, px 255 4 4 255, px 171 171 254 171,
     px 255 4 4 255, px 255 4 4 255, px 255 4 4 255, px 84 84 252 84,
     px 255 4 4 255, px 255 4 4 255, px 255 4 4 255, px 0 0 251 0] := by
  decide

/-- V-X6: mode 6's first bit of R0 lies in byte 0. -/
theorem test_pixels_m6_corner : look (exec (.decodeBlock (bytes (0x40 :: List.replicate 15 0xFF))) State.reset)
    (fun t => t.scratch.pix.toList) = some (px 254 255 255 255 :: List.replicate 15 (px 255 255 255 255)) := by decide
theorem test_pixels_inv : look (exec .decodeInv State.reset) (fun t => (t.scratch.mode, t.scratch.pix.toList)) =
    some (.invalid, List.replicate 16 (px 0 0 0 0)) := by decide

/-! The host transactions. -/

/-- V-EX3's block with the indices of V-GS1. -/
def wordB6 : List Byte := bytes [0xC0, 0x42, 0x41, 0xA1, 0x78, 0x3C, 0x28, 0x14, 0x10, 0x32, 0x54, 0x76, 0x98, 0xBA, 0xDC, 0xFE]
/-- V-M4, not rotated. -/
def wordB4 : List Byte := bytes [0x10, 0xE0, 0x83, 0x0F, 0x3E, 0xF0, 0xCB, 0xC9, 0xC9, 0xC9, 0x89, 0xC6, 0xFA, 0x77, 0x39, 0x05]

/-- V-GS1: IN at address 1000, OUT at 2000. -/
def gs1 : TextureCmd := ⟨1000, 64, 5, 5, 2000, 100⟩
def inputGs1 : Memory := Memory.writeBytes [] 1000 (wordB6 ++ wordM2 ++ wordB4 ++ zeroWord)
/-- OUT prefilled with AA. -/
def memGs1 : Memory := inputGs1.writeBytes 2000 (bytes (List.replicate 100 0xAA))

theorem test_decode_block : look (exec (.decodeBlock wordB6) State.reset) (fun t => t.replies) =
    some [.pixels (Vector.replicate 16 (px 10 20 30 40))] := by decide
theorem test_decode_block_refuses : refusal (exec (.decodeBlock (bytes [1, 2, 3])) State.reset) =
    some .blockNotSixteenBytes := by decide
/-- V-GS1, V-ST step 2: the issue step. -/
theorem test_decode_texture_issue : look (exec (.decodeTexture gs1) (start inputGs1 []))
    (fun t => (t.gsu.state, t.gsu.status, t.gsu.cmd, t.gsu.pending)) =
    some (.busy, .none, some gs1, [(0, 0), (1, 0), (0, 1), (1, 1)]) := by decide
/-- V-GS3, V-GS4, V-GS5: short lengths. -/
theorem test_decode_texture_short :
    [(63, 100), (64, 99), (63, 99)].map (fun l =>
      look (exec (.decodeTexture { gs1 with inLen := l.1, outLen := l.2 }) State.reset) fun t => (t.gsu.state, t.gsu.status)) =
    [some (.idle, .inputTooShort), some (.idle, .outputTooShort), some (.idle, .inputTooShort)] := by decide
/-- 44_gather R181. -/
theorem test_decode_texture_refusals :
    refusal (exec (.decodeTexture gs1) ((start [] []).issue gs1)) = some .textureWhileBusy ∧
    refusal (exec (.decodeTexture { gs1 with width := 2 ^ 32 }) State.reset) = some .dimensionNotU32 ∧
    refusal (exec (.decodeTexture { gs1 with outBase := 1063 }) State.reset) = some .buffersOverlap ∧
    refusal (exec (.decodeTexture { gs1 with outBase := 1064 }) State.reset) = none ∧
    refusal (exec (.decodeTexture { gs1 with outBase := 901 }) State.reset) = some .buffersOverlap ∧
    refusal (exec (.decodeTexture { gs1 with outBase := 900 }) State.reset) = none := by decide

set_option maxRecDepth 10000 in
/-- V-GS1: block (1, 0) is clipped to its first column, image column 4. -/
theorem test_block_step : look (blockStep gs1 1 0 (start memGs1 [])) (fun t => t.mem.readBytes 2000 84) = some (bytes
    ([0xAA, 0xAA, 0xAA, 0xAA, 0xAA, 0xAA, 0xAA, 0xAA, 0xAA, 0xAA, 0xAA, 0xAA, 0xAA, 0xAA, 0xAA, 0xAA, 0xFF, 0, 0, 0xFF] ++
     [0xAA, 0xAA, 0xAA, 0xAA, 0xAA, 0xAA, 0xAA, 0xAA, 0xAA, 0xAA, 0xAA, 0xAA, 0xAA, 0xAA, 0xAA, 0xAA, 0xFF, 0, 0, 0xFF] ++
     [0xAA, 0xAA, 0xAA, 0xAA, 0xAA, 0xAA, 0xAA, 0xAA, 0xAA, 0xAA, 0xAA, 0xAA, 0xAA, 0xAA, 0xAA, 0xAA, 0, 0xFF, 0, 0xFF] ++
     [0xAA, 0xAA, 0xAA, 0xAA, 0xAA, 0xAA, 0xAA, 0xAA, 0xAA, 0xAA, 0xAA, 0xAA, 0xAA, 0xAA, 0xAA, 0xAA, 0, 0, 0xFF, 0xFF] ++
     [0xAA, 0xAA, 0xAA, 0xAA])) := by decide
/-- V-GS1: row 4 of the image comes from blocks (0, 1) and (1, 1). -/
theorem test_image_bytes : [80, 84, 87, 91, 95, 99].map (imageByte gs1 inputGs1) =
    bytes [0, 0x54, 0x24, 0x48, 0x6C, 0] := by decide
/-- A step of the GSU whose schedule picks the third pending block, one lane. -/
theorem test_gsu_step_takes_the_picked_block :
    look (step { (start inputGs1 []).issue gs1 with turn := ⟨false, 2, 0⟩ })
      (fun t => (t.gsu.state, t.gsu.pending, t.mem.readBytes 2084 4)) =
    some (.busy, [(0, 0), (1, 0), (1, 1)], bytes [0x54, 0x54, 0x54, 0x24]) := by decide
/-- V-GS6: zero width, then completion. -/
theorem test_zero_size : look (step ((start inputGs1 []).issue ⟨1000, 0, 0, 7, 2000, 0⟩))
    (fun t => (t.gsu.state, t.gsu.status, t.mem)) = some (.idle, .ok, inputGs1) := by decide

/-! The host's other actions. -/

theorem test_wait_blocks_while_busy :
    look (step { (start [] [.wait]).issue ⟨0, 0, 0, 0, 0, 0⟩ with turn := ⟨true, 0, 0⟩ }) (fun t => (t.queue, t.gsu.state)) =
    some ([.wait], .idle) ∧ look (step (start [] [.wait])) (fun t => t.queue) = some [] := by decide
theorem test_read : look (step (start inputGs1 [.read 1000 1 3])) (fun t => t.replies) =
    some [.bytes (bytes [0x42, 0x41])] := by decide
theorem test_poll : look (step (start [] [.poll])) (fun t => t.replies) = some [.status .idle .none] := by decide
theorem test_write : look (step (start [] [.write 7 (bytes [5, 0, 6])])) (fun t => t.mem) =
    some [(7, 5#8), (9, 6#8)] := by decide
/-- 70_reset R215: byte 2099 is the last of OUT, 2100 lies beyond it. -/
theorem test_write_while_busy :
    refusal (step { (start [] [.write 2099 (bytes [1])]).issue gs1 with turn := ⟨true, 0, 0⟩ }) = some .hostWriteWhileBusy ∧
    refusal (step { (start [] [.write 1063 (bytes [1])]).issue gs1 with turn := ⟨true, 0, 0⟩ }) = some .hostWriteWhileBusy ∧
    look (step { (start [] [.write 2100 (bytes [1])]).issue gs1 with turn := ⟨true, 0, 0⟩ }) (fun t => t.mem) =
      some [(2100, 1#8)] := by decide
/-- 70_reset R210: a reset abandons the transaction. -/
theorem test_reset_while_busy :
    look (step { (start [] [.reset]).issue gs1 with turn := ⟨true, 0, 0⟩ }) (fun t => t.gsu) = some Gsu.reset := by decide

/-! Witnesses: for each obligation with hypotheses, states and operands that meet all of them, one for each clause and
at the ends of its ranges. -/

/-- The largest value of every field: bytes 1 to 15 all FF, in every mode. -/
def fullWords : List (List Byte) :=
  [0x01, 0x02, 0x04, 0x08, 0x10, 0x20, 0x40, 0x80, 0xFF].map fun b => bytes (b :: List.replicate 15 0xFF)

/-- DecodeM0Result to DecodeM7Result, DecodeOfEncodeIsTheInstruction: test_wf_accepts and test_decode_m0 to m7 give one
witness a mode; here are those with every field at its largest value. -/
theorem witness_full_fields : fullWords.all (fun w => match decode w with
    | .ok i => i.wf && (encode i == some w) && (i != .decodeInv)
    | .error _ => false) = true := by decide

/-- DecodeInvResult, second clause. -/
theorem witness_modeless : (0xA5 * 256) % 256 = 0 ∧ leNat zeroWord % 256 = 0 := by decide

/-- PartitionTablesAreConsistent, ExpansionLaws, WeightsAreRoundedFractions, InterpolationRoundsHalvesUp and
InterpolationLaws. -/
theorem witness_numbers : ((2 = 2 ∨ 2 = 3) ∧ 63 < 64) ∧ ((3 = 2 ∨ 3 = 3) ∧ 0 < 64) ∧ (5 ≤ 5 ∧ 5 ≤ 8 ∧ 0 < 1 ∧ 1 < 2 ^ 5) ∧
    (5 ≤ 8 ∧ 8 ≤ 8 ∧ 254 < 255 ∧ 255 < 2 ^ 8) ∧ (4 = 2 ∨ 4 = 3 ∨ 4 = 4) ∧ 15 < 2 ^ 4 ∧ (0 ≤ 255 ∧ 255 ≤ 255 ∧ 64 ≤ 64) := by
  decide

/-- EqualEndpointsGiveAConstantSubset: mode 0, a pixel of each subset. -/
def fieldsEqual : BlockFields := { fieldsM0 with red := [9, 9, 15, 15, 0, 0], green := [5, 5, 0, 0, 0, 0],
                                                 blue := [1, 1, 0, 0, 15, 15], uniqueP := [1, 1, 1, 1, 0, 0] }
theorem witness_equal_endpoints : fieldsEqual.wf .m0 = true ∧
    [((0 : Fin 16), (0 : Fin 3)), (2, 1), (15, 2)].all (fun q =>
      let t := blockRun (.mode .m0 fieldsEqual) Scratch.reset
      t.sub[q.1].toNat == q.2.val && t.ep[q.2][(0 : Fin 2)] == t.ep[q.2][(1 : Fin 2)]) = true := by decide

/-- DecodeBlockResult: both clauses. -/
theorem witness_block_lengths : zeroWord.length = 16 ∧ (bytes (List.replicate 15 0)).length ≠ 16 ∧
    (bytes (List.replicate 17 0)).length ≠ 16 := by decide

/-- A command whose lengths are exactly enough and whose buffers touch without overlapping. -/
def tight : TextureCmd := ⟨1000, 64, 5, 5, 1064, 100⟩
/-- The largest dimensions. -/
def huge : TextureCmd := ⟨0, 2 ^ 64, 2 ^ 32 - 1, 2 ^ 32 - 1, 2 ^ 64, 2 ^ 66⟩

/-- DecodeTextureIssues. -/
theorem witness_issue : [tight, huge, gs1].all (fun c => State.reset.gsu.state == .idle && decide (c.width < 2 ^ 32) &&
    decide (c.height < 2 ^ 32) && buffersOverlap c == false &&
    decide ((c.width + 3) / 4 * ((c.height + 3) / 4) * 16 ≤ c.inLen) && decide (c.width * c.height * 4 ≤ c.outLen)) = true := by
  decide

/-- ShortLengthsAreReportedAtIssue: both clauses, each one byte short. -/
theorem witness_short : State.reset.gsu.state = .idle ∧ buffersOverlap gs1 = false ∧
    (63 < (5 + 3) / 4 * ((5 + 3) / 4) * 16 ∧ Status.inputTooShort = .inputTooShort ∧ 1 = 1) ∧
    ((5 + 3) / 4 * ((5 + 3) / 4) * 16 ≤ 64 ∧ 99 < 5 * 5 * 4 ∧ Status.outputTooShort = .outputTooShort ∧ 2 = 2) := by decide

/-- DecodeTextureRefusals: the overlap clause, with one shared byte; test_decode_texture_refusals has the others. -/
theorem witness_overlap : ∃ a, (1000 ≤ a ∧ a < 1000 + (5 + 3) / 4 * ((5 + 3) / 4) * 16) ∧
    1063 ≤ a ∧ a < 1063 + 5 * 5 * 4 := ⟨1063, by decide⟩
theorem witness_refusals : ((start [] []).issue gs1).gsu.state = .busy ∧ State.reset.gsu.state = .idle ∧
    2 ^ 32 ≤ ({ gs1 with width := 2 ^ 32 } : TextureCmd).width ∧ 2 ^ 32 ≤ ({ gs1 with height := 2 ^ 32 } : TextureCmd).height := by
  decide

/-- ZeroSizeTextureCompletes: either dimension, and the GSU moves after the issue step. -/
theorem witness_zero_size : ((0 = 0 ∨ 7 = 0) ∧ TextureCmd.dimsFit ⟨1000, 0, 0, 7, 1000, 0⟩ = true) ∧
    ((7 = 0 ∨ 0 = 0) ∧ TextureCmd.dimsFit ⟨1000, 0, 7, 0, 1000, 0⟩ = true) ∧
    (start inputGs1 []).gsu.state = .idle ∧ GsuMoves ((start inputGs1 []).issue ⟨1000, 0, 0, 7, 1000, 0⟩) :=
  ⟨by decide, by decide, rfl, rfl, .inl rfl⟩

theorem legal_gs1 : CommandLegal gs1 := ⟨by decide, by decide, by decide⟩
theorem legal_zero : CommandLegal ⟨1000, 0, 0, 7, 2000, 0⟩ := ⟨by decide, by decide, by decide⟩
theorem wf_inputGs1 : Memory.wf inputGs1 := Memory.wf_writeBytes Memory.wf_nil _ _

/-- BlockStepScattersTheClippedBlock: the last block, whose first pixel alone is inside, and a byte beyond the output. -/
theorem witness_block_step : CommandLegal gs1 ∧ 1 < gridWidth gs1 ∧ 1 < gridHeight gs1 ∧ Memory.wf inputGs1 ∧
    (1 * 4 + 0 % 4 < gs1.width ∧ 1 * 4 + 0 / 4 < gs1.height) ∧
    (∀ p : Fin 16, 1 * 4 + p.val % 4 < gs1.width → 1 * 4 + p.val / 4 < gs1.height →
      ¬ (gs1.outBase + ((1 * 4 + p.val / 4) * gs1.width + (1 * 4 + p.val % 4)) * 4 ≤ 2100 ∧
        2100 < gs1.outBase + ((1 * 4 + p.val / 4) * gs1.width + (1 * 4 + p.val % 4)) * 4 + 4)) :=
  ⟨legal_gs1, by decide, by decide, wf_inputGs1, by decide, by decide⟩

/-- StepRunsTheDecodedInstruction: both clauses, while IDLE and, for a DECODE_BLOCK, while BUSY with the host first. -/
theorem witness_step_runs :
    ((start [] [.decodeBlock wordM0]).queue = .decodeBlock wordM0 :: [] ∧ (start [] [.decodeBlock wordM0]).gsu.state = .idle ∧
      decode wordM0 = .ok (.decodeM0 fieldsM0) ∧
      ∃ u, exec (.decodeM0 fieldsM0) (start [] [.decodeBlock wordM0]).popAction = .next u) ∧
    (((start [] [.decodeBlock wordM0]).issue gs1).turn.hostFirst = true ∧
      ∃ u, exec (.decodeM0 fieldsM0) ((start [] [.decodeBlock wordM0]).issue gs1).popAction = .next u) ∧
    ((start [] [.decodeTexture gs1]).queue = .decodeTexture gs1 :: [] ∧ (start [] [.decodeTexture gs1]).gsu.state = .idle ∧
      ∃ u, exec (.decodeTexture gs1) (start [] [.decodeTexture gs1]).popAction = .next u) :=
  ⟨⟨rfl, rfl, by decide, _, rfl⟩, ⟨rfl, _, rfl⟩, rfl, rfl, _, rfl⟩

/-- An IDLE state that meets the invariant. -/
theorem inv_start (q : List HostAction) : Inv (start inputGs1 q) := .of_idle wf_inputGs1 (show (0 : BitVec 8).toNat ≤ 128 by decide) rfl

/-- A BUSY state, every block of V-GS1 pending, with this schedule. -/
def running (q : List HostAction) (turn : Turn) : State := { (start inputGs1 q).issue gs1 with turn := turn }
theorem inv_running (q : List HostAction) (turn : Turn) : Inv (running q turn) :=
  ((inv_start q).issue (c := gs1) (by decide) (by decide)).of_same rfl
    (show (0 : BitVec 8).toNat ≤ 128 by decide) rfl

/-- A BUSY state with nothing left pending. -/
def ending (q : List HostAction) : State := (start inputGs1 q).issue ⟨1000, 0, 0, 7, 2000, 0⟩
theorem inv_ending (q : List HostAction) : Inv (ending q) := (inv_start q).issue (by decide) (by decide)

/-- StepKeepsTheInvariant and NoStepFaults: a state of each kind, and a step that answers. -/
theorem witness_invariant_step : (Inv (start inputGs1 [.poll]) ∧ ∃ t, step (start inputGs1 [.poll]) = .next t) ∧
    (Inv (running [.read 0 0 1] ⟨true, 0, 0⟩) ∧ ∃ t, step (running [.read 0 0 1] ⟨true, 0, 0⟩) = .next t) ∧
    (Inv (ending []) ∧ ∃ t, step (ending []) = .next t) ∧ Inv (running [] ⟨false, 3, 0⟩) :=
  ⟨⟨inv_start _, _, rfl⟩, ⟨inv_running _ _, _, rfl⟩, ⟨inv_ending _, _, rfl⟩, inv_running _ _⟩

/-- StepsAreSafeWhileTheHostKeepsItsDuties: a write just beyond the output while BUSY, and an issue while IDLE. -/
theorem witness_duties :
    (Inv (running [.write 2100 (bytes [1])] ⟨true, 0, 0⟩) ∧
      ∀ a rest, HostMoves (running [.write 2100 (bytes [1])] ⟨true, 0, 0⟩) →
        (running [.write 2100 (bytes [1])] ⟨true, 0, 0⟩).queue = a :: rest →
        HostDuty (running [.write 2100 (bytes [1])] ⟨true, 0, 0⟩) a) ∧
    (Inv (start inputGs1 [.decodeTexture gs1]) ∧
      ∀ a rest, HostMoves (start inputGs1 [.decodeTexture gs1]) →
        (start inputGs1 [.decodeTexture gs1]).queue = a :: rest → HostDuty (start inputGs1 [.decodeTexture gs1]) a) := by
  refine ⟨⟨inv_running _ _, ?_⟩, inv_start _, ?_⟩
  · rintro a rest - h
    obtain ⟨rfl, -⟩ := List.cons.inj h
    intro k hk
    obtain rfl : k = 0 := by simpa [bytes] using hk
    decide
  · rintro a rest - h
    obtain ⟨rfl, -⟩ := List.cons.inj h
    exact ⟨rfl, by decide, by decide⟩

/-- GsuStepTakesPendingBlocks, GsuStepCompletes. -/
theorem witness_gsu_steps : (Inv (running [.poll] ⟨false, 3, 5⟩) ∧ GsuMoves (running [.poll] ⟨false, 3, 5⟩) ∧
      (running [.poll] ⟨false, 3, 5⟩).gsu.pending ≠ [] ∧ (running [.poll] ⟨false, 3, 5⟩).gsu.cmd = some gs1 ∧
      outUsed gs1 2100 = false ∧ outUsed gs1 1999 = false) ∧
    (GsuMoves (ending []) ∧ (ending []).gsu.cmd = some ⟨1000, 0, 0, 7, 2000, 0⟩ ∧ (ending []).gsu.pending = []) :=
  ⟨⟨inv_running _ _, ⟨rfl, .inr rfl⟩, by decide, rfl, by decide, by decide⟩, ⟨rfl, .inl rfl⟩, rfl, rfl⟩

/-- GsuStateTransitions and StatusIsWrittenOnlyAtTheEnd: a step into BUSY, one out of it by completion, one by reset, an
issue step with a length error. -/
theorem witness_transitions :
    look (step (start inputGs1 [.decodeTexture gs1])) (fun t => t.gsu.state) = some .busy ∧
    look (step (ending [])) (fun t => (t.gsu.state, t.gsu.status)) = some (.idle, .ok) ∧ (ending []).gsu.status = .none ∧
    look (step (running [.reset] ⟨true, 0, 0⟩)) (fun t => t.gsu.state) = some .idle ∧
    look (step { State.reset with gsu := { Gsu.reset with status := .ok }, queue := [.reset] }) (fun t => t.gsu.status) =
      some .none ∧
    look (step (start [] [.decodeTexture { gs1 with inLen := 0 }])) (fun t => t.gsu.status) = some .inputTooShort := by
  decide

/-- CommandIsFixedWhileBusy and MemoryChangesOnlyInTheOutputOrByTheHost: a block step that changes a byte of the output,
and a host write. -/
theorem witness_changes :
    look (step (running [] ⟨false, 0, 0⟩)) (fun t => (t.gsu.state, t.mem.read 2000)) = some (.busy, 10#8) ∧
    (running [] ⟨false, 0, 0⟩).mem.read 2000 ≠ 10#8 ∧
    look (step (start [] [.write 5 (bytes [1])])) (fun t => t.mem.read 5) = some 1#8 ∧ (start [] []).mem.read 5 ≠ 1#8 := by
  decide

/-- IdleMachineKeepsItsState. -/
theorem witness_idle : (start inputGs1 []).gsu.state = .idle ∧ (start inputGs1 []).queue = [] := ⟨rfl, rfl⟩

/-- HostReadGivesTheBytes: while IDLE, and while BUSY at the last byte before the output and the first beyond it. -/
theorem witness_read : HostMoves (start inputGs1 [.read 1000 0 64]) ∧ HostMoves (running [.read 1999 0 102] ⟨true, 0, 0⟩) ∧
    (running [.read 1999 0 102] ⟨true, 0, 0⟩).gsu.cmd = some gs1 ∧
    ¬ (gs1.outBase ≤ 1999 + 0 + 0 ∧ 1999 + 0 + 0 < gs1.outBase + needOut gs1) ∧
    ¬ (gs1.outBase ≤ 1999 + 0 + 101 ∧ 1999 + 0 + 101 < gs1.outBase + needOut gs1) :=
  ⟨⟨rfl, .inl rfl⟩, ⟨rfl, .inr rfl⟩, rfl, by decide, by decide⟩

/-- HostWritesOutsideTheUsedRanges: the first byte beyond the output is free, its last byte is not, nor the input's. -/
theorem witness_write : Memory.wf (running [.write 2100 (bytes [1])] ⟨true, 0, 0⟩).mem ∧
    HostMoves (running [.write 2100 (bytes [1])] ⟨true, 0, 0⟩) ∧
    (running [.write 2100 (bytes [1])] ⟨true, 0, 0⟩).claimed (2100 + 0) = false ∧
    (running [.write 2099 (bytes [1])] ⟨true, 0, 0⟩).gsu.state = .busy ∧
    (running [.write 2099 (bytes [1])] ⟨true, 0, 0⟩).gsu.cmd = some gs1 ∧ outUsed gs1 2099 = true ∧ inUsed gs1 1063 = true ∧
    inUsed gs1 1064 = false ∧ 2099 < 2099 + (bytes [1]).length :=
  ⟨(inv_running _ _).memory, ⟨rfl, .inr rfl⟩, by decide, rfl, rfl, by decide, by decide, by decide, by decide⟩

/-- ResetAbandonsTheTransaction: while IDLE and while BUSY, with a byte on each side of the output's end. -/
theorem witness_reset : (Inv (start inputGs1 [.reset]) ∧ HostMoves (start inputGs1 [.reset])) ∧
    (Inv (running [.reset] ⟨true, 0, 0⟩) ∧ HostMoves (running [.reset] ⟨true, 0, 0⟩) ∧
      (running [.reset] ⟨true, 0, 0⟩).gsu.cmd = some gs1 ∧ outUsed gs1 2100 = false ∧ 99 < needOut gs1) :=
  ⟨⟨inv_start _, rfl, .inl rfl⟩, inv_running _ _, ⟨rfl, .inr rfl⟩, rfl, by decide, by decide⟩

/-- HostSeesTheEndByPolling: a poll while BUSY, a WAIT that blocks and one that passes. -/
theorem witness_poll : HostMoves (running [.poll] ⟨true, 0, 0⟩) ∧ HostMoves (start [] [.poll]) ∧
    (∃ t, step (ending [.wait]) = .next t) ∧ (∃ t, step (start [] [.wait]) = .next t) :=
  ⟨⟨rfl, .inr rfl⟩, ⟨rfl, .inl rfl⟩, ⟨_, rfl⟩, ⟨_, rfl⟩⟩

/-- TextureEndsOkWithItsImage. -/
theorem witness_texture : Inv (start inputGs1 [.decodeTexture gs1, .wait, .poll]) ∧
    (start inputGs1 [.decodeTexture gs1, .wait, .poll]).gsu.state = .idle ∧ CommandLegal gs1 ∧
    (start inputGs1 [.decodeTexture gs1, .wait, .poll]).queue = .decodeTexture gs1 :: .wait :: [.poll] :=
  ⟨inv_start _, rfl, legal_gs1, rfl⟩

/-- OutputDependsOnTheUsedInputAlone: two memories that differ in a byte beyond the used input. -/
theorem witness_same_input :
    Inv (start inputGs1 [.decodeTexture ⟨1000, 16, 4, 4, 2000, 64⟩, .wait]) ∧
    Inv (start (inputGs1.write 1016 1#8) [.decodeTexture ⟨1000, 16, 4, 4, 2000, 64⟩, .wait, .poll]) ∧
    CommandLegal ⟨1000, 16, 4, 4, 2000, 64⟩ ∧
    (∀ a, inUsed ⟨1000, 16, 4, 4, 2000, 64⟩ a = true → inputGs1.read a = (inputGs1.write 1016 1#8).read a) ∧
    inputGs1.read 1016 ≠ (inputGs1.write 1016 1#8).read 1016 := by
  refine ⟨inv_start _, .of_idle (s := start (inputGs1.write 1016 1#8) [.decodeTexture ⟨1000, 16, 4, 4, 2000, 64⟩, .wait, .poll])
      (show Memory.wf (inputGs1.write 1016 1#8) from Memory.wf_write wf_inputGs1 1016 1#8)
      (show (0 : BitVec 8).toNat ≤ 128 by decide) rfl,
    ⟨by decide, by decide, by decide⟩, fun a ha => ?_, by decide⟩
  have := (inUsed_iff _ _).1 ha
  rw [Memory.read_write wf_inputGs1, if_neg]
  rintro rfl
  exact absurd this (by decide)

/-- EveryScheduleGivesTheSameMemory: two states with different schedules, both run to the end of a transaction. -/
theorem witness_schedules :
    let q : List HostAction := [.decodeTexture ⟨1000, 0, 0, 7, 2000, 0⟩, .wait]
    Inv (start inputGs1 q) ∧ Inv { start inputGs1 q with turn := ⟨false, 7, 3⟩ } ∧
    ∃ t t', core.run 2 (start inputGs1 q) = .next t ∧ core.run 2 { start inputGs1 q with turn := ⟨false, 7, 3⟩ } = .next t' ∧
      t.gsu.state = .idle ∧ t'.gsu.state = .idle ∧ t.queue = [.wait] ∧ t'.queue = [.wait] :=
  ⟨inv_start _, (inv_start [.decodeTexture ⟨1000, 0, 0, 7, 2000, 0⟩, .wait]).of_same rfl (by decide) rfl, _, _, rfl, rfl, rfl, rfl, rfl, rfl⟩

end Sys2Proof.Tests
end

section
/-! PROOFS (family 10_state.md). The state: what a block step and a host action do to it, and that every step keeps
the invariant. -/

namespace Sys2Proof.Machine
open Memory

/-! The pixels of a block do not depend on the scratch registers it starts from (40_mode R103). -/

/-- The scratch registers of a block of mode `m` before the PCC writes its pixels (40_mode R102). -/
def beforeCombiner (m : Mode) (f : BlockFields) (sc : Scratch) : Scratch :=
  let q := Tables.modeParams m
  let extracted := mfx m q.ns (modeHasAlpha q) (modePBits q) f sc
  eui q.ns (modeHasP q) (precision q q.cb) (alphaPrecision q)
    (ple q.ns (if q.ib2 = 0 then extracted else mfxSecondary f extracted))

theorem blockRun_eq_pccStreams (m : Mode) (f : BlockFields) (sc : Scratch) :
    blockRun (.mode m f) sc = pccStreams (Tables.modeParams m) (beforeCombiner m f sc) := by
  cases m <;> rfl

/-- Every register the PCC of a mode reads is the same in both (43_color R150 to R154). -/
structure SameForCombiner (q : ModeParams) (sc sc' : Scratch) : Prop where
  sub (p : Fin 16) : sc.sub[p] = sc'.sub[p]
  sub_lt (p : Fin 16) : sc.sub[p].toNat < q.ns
  rot : sc.rot = sc'.rot
  isel : sc.isel = sc'.isel
  idx (p : Fin 16) : sc.idx[p] = sc'.idx[p]
  idx2 (h : q.ib2 ≠ 0) (p : Fin 16) : sc.idx2[p] = sc'.idx2[p]
  ep (s : Fin 3) (e : Fin 2) (h : s.val < q.ns) : sc.ep[s][e] = sc'.ep[s][e]

theorem pcc_pix_congr {q : ModeParams} {sc sc' : Scratch} (hns : q.ns ≤ 3) (h : SameForCombiner q sc sc')
    {cw aw : Scratch → Fin 16 → Nat} (hc : ∀ p, cw sc p = cw sc' p) (ha : ∀ p, aw sc p = aw sc' p) :
    (pcc cw aw sc).pix = (pcc cw aw sc').pix :=
  vector_ext fun p => by
    rw [pcc_pix, pcc_pix, hc, ha]
    exact combine_congr _ _ hns (h.sub_lt p) (h.sub p) h.rot h.ep

theorem pccStreams_pix_congr {q : ModeParams} {sc sc' : Scratch} (hns : q.ns ≤ 3) (h : SameForCombiner q sc sc') :
    (pccStreams q sc).pix = (pccStreams q sc').pix := by
  have primary : ∀ b p, primaryWeight b sc p = primaryWeight b sc' p := fun b p => by
    rw [primaryWeight, primaryWeight, h.idx]
  have secondary : q.ib2 ≠ 0 → ∀ b p, secondaryWeight b sc p = secondaryWeight b sc' p := fun h2 b p => by
    rw [secondaryWeight, secondaryWeight, h.idx2 h2]
  unfold pccStreams
  rw [h.isel]
  split
  · exact pcc_pix_congr hns h (primary _) (primary _)
  next h2 =>
    split
    · exact pcc_pix_congr hns h (primary _) (secondary h2 _)
    · exact pcc_pix_congr hns h (secondary h2 _) (primary _)

/-- An endpoint of a subset the mode has is unpacked from the block's fields alone: what the mode lacks is not read
(41_endpoint R111, R112). -/
theorem unpackEndpoint_congr (q : ModeParams) (nc : Nat) (f : BlockFields) (raw raw' : Rgba) (pb pb' : BitVec 1)
    (k s e : Nat) :
    unpackEndpoint (modeHasP q) nc (alphaPrecision q) (rawEndpoint (modeHasAlpha q) f raw k)
        (pBit (modePBits q) f pb s e) =
      unpackEndpoint (modeHasP q) nc (alphaPrecision q) (rawEndpoint (modeHasAlpha q) f raw' k)
        (pBit (modePBits q) f pb' s e) := by
  cases ha : modeHasAlpha q <;> cases hp : modePBits q <;>
    simp [unpackEndpoint, unpackChannel, rawEndpoint, alphaPrecision, modeHasP, pBit, withPBit, ha, hp]

theorem beforeCombiner_same (m : Mode) (f : BlockFields) (sc sc' : Scratch) :
    SameForCombiner (Tables.modeParams m) (beforeCombiner m f sc) (beforeCombiner m f sc') := by
  have hns : (Tables.modeParams m).ns = 1 ∨ (Tables.modeParams m).ns = 2 ∨ (Tables.modeParams m).ns = 3 := by
    cases m <;> decide
  constructor
  case sub => intro p; simp only [beforeCombiner, eui_sub, ple_sub]; split <;> simp
  case sub_lt =>
    intro p
    simp only [beforeCombiner, eui_sub, ple_sub, BitVec.toNat_ofNat]
    exact (Nat.mod_le _ _).trans_lt (subsetOf_lt _ _ _ hns p.isLt)
  case rot => simp only [beforeCombiner, eui_rot, ple_rot]; split <;> simp
  case isel => simp only [beforeCombiner, eui_isel, ple_isel]; split <;> simp
  case idx => intro p; simp only [beforeCombiner, eui_idx, ple_idx]; split <;> simp only [mfxSecondary_idx, mfx_idx]
  case idx2 => intro h p; simp only [beforeCombiner, eui_idx2, ple_idx2, if_neg h, mfxSecondary_idx2]
  case ep =>
    intro s e hs
    simp only [beforeCombiner, eui_ep, ple_raw, ple_pb, if_pos hs]
    split <;> simp only [mfxSecondary_raw, mfxSecondary_pb, mfx_raw, mfx_pb, if_pos hs] <;>
      exact unpackEndpoint_congr _ _ _ _ _ _ _ _ _ _

/-- The pixels of a block are a function of the block alone (40_mode R103). -/
theorem blockRun_pix_congr (b : Block) (sc sc' : Scratch) : (blockRun b sc).pix = (blockRun b sc').pix := by
  cases b with
  | modeless => rfl
  | mode m f =>
    rw [blockRun_eq_pccStreams, blockRun_eq_pccStreams]
    exact pccStreams_pix_congr (by cases m <;> decide) (beforeCombiner_same m f sc sc')

theorem blockRun_pix (blk : Nat) (sc : Scratch) : (blockRun (decodeBlk blk) sc).pix = decodeBlockPixels blk :=
  blockRun_pix_congr _ _ _

/-! The block step, seen from the output (44_gather R175). -/

/-- The block that byte `off` of OUT belongs to (44_gather R180). -/
def byteBlock (c : TextureCmd) (off : Nat) : Nat × Nat := (off / 4 % c.width / 4, off / 4 / c.width / 4)

theorem bytePending_iff (c : TextureCmd) (pending : List (Nat × Nat)) (off : Nat) :
    bytePending c pending off ↔ byteBlock c off ∈ pending := Iff.rfl

/-- A pixel of the image is stored to bytes of OUT that belong to its block. -/
theorem pixelAddress_in_output {c : TextureCmd} {col row : Nat} {p : Fin 16} (hp : pixelInside c col row p) {x : Nat}
    (h1 : pixelAddress c col row p ≤ x) (h2 : x < pixelAddress c col row p + 4) :
    outUsed c x = true ∧ byteBlock c (x - c.outBase) = (col, row) := by
  have hb := pixelOffset_bound c hp.1 hp.2
  unfold pixelAddress at h1 h2
  obtain ⟨hx, hy, -⟩ := pixelOffset_coordinates c (y := row * 4 + p.val / 4) hp.1
    (show x - c.outBase - pixelOffset c (col * 4 + p.val % 4) (row * 4 + p.val / 4) < 4 by omega)
  rw [Nat.add_sub_cancel' (by omega)] at hx hy
  refine ⟨(outUsed_iff _ _).2 (by omega), ?_⟩
  rw [byteBlock, hx, hy]
  exact Prod.ext (by dsimp only; omega) (by dsimp only; omega)

/-- Every byte of OUT is byte `off % 4` of a pixel of its block. -/
theorem offset_eq_pixelAddress {c : TextureCmd} {off : Nat} (h : off < needOut c) :
    ∃ p : Fin 16, p.val = 4 * (off / 4 / c.width % 4) + off / 4 % c.width % 4 ∧
      pixelInside c (byteBlock c off).1 (byteBlock c off).2 p ∧
      c.outBase + off = pixelAddress c (byteBlock c off).1 (byteBlock c off).2 p + off % 4 := by
  obtain ⟨hx, hy, hoff⟩ := offset_of_coordinates c h
  refine ⟨⟨4 * (off / 4 / c.width % 4) + off / 4 % c.width % 4, by omega⟩, rfl, ?_, ?_⟩
  · simp only [pixelInside, byteBlock]
    omega
  · have ex : off / 4 % c.width / 4 * 4 + (4 * (off / 4 / c.width % 4) + off / 4 % c.width % 4) % 4 =
        off / 4 % c.width := by omega
    have ey : off / 4 / c.width / 4 * 4 + (4 * (off / 4 / c.width % 4) + off / 4 % c.width % 4) / 4 =
        off / 4 / c.width := by omega
    simp only [pixelAddress, byteBlock, ex, ey]
    omega

/-- What a block step of a legal command does to memory: the bytes of OUT that belong to its block become final, and
every other byte stays (44_gather R175, R180). -/
theorem blockStep_image {c : TextureCmd} (hl : CommandLegal c) {b : Nat × Nat} (hb : b ∈ blockGrid c) {s : State}
    (hm : Memory.wf s.mem) :
    ∃ m, blockStep c b.1 b.2 s =
        .next ((s.withBdu (blockRun (decodeBlk (blockAt c s.mem b.1 b.2)))).withMem m) ∧ Memory.wf m ∧
      (∀ off < needOut c, m.read (c.outBase + off) =
        if byteBlock c off = b then imageByte c s.mem off else s.mem.read (c.outBase + off)) ∧
      ∀ x, outUsed c x = false → m.read x = s.mem.read x := by
  obtain ⟨hc, hr⟩ := (mem_blockGrid c b).1 hb
  obtain ⟨m, hstep, hwf, hat, helse⟩ := blockStep_spec hl hc hr hm
  refine ⟨m, hstep, hwf, fun off ho => ?_, fun x hx => helse x fun p hp hrange => ?_⟩
  · split
    next heq =>
      obtain ⟨p, hpv, hpin, haddr⟩ := offset_eq_pixelAddress ho
      rw [heq] at hpin haddr
      rw [haddr, hat p hpin _ (Nat.mod_lt _ (by omega)), State.withBdu_scratch, blockRun_pix, imageByte, imagePixel,
        show off / 4 % c.width / 4 = b.1 from congrArg Prod.fst heq,
        show off / 4 / c.width / 4 = b.2 from congrArg Prod.snd heq]
      simp only [Fin.getElem_fin, hpv]
    next hne =>
      refine helse _ fun p hp hrange => hne ?_
      simpa using (pixelAddress_in_output hp hrange.1 hrange.2).2
  · rw [(pixelAddress_in_output hp hrange.1 hrange.2).1] at hx
    cases hx

/-! The lanes of a GSU step keep the invariant. -/

/-- Taking block number `k` out of the pending set leaves the others. -/
theorem mem_eraseIdx_of_nodup {α : Type} [DecidableEq α] {l : List α} (hl : l.Nodup) {k : Nat} (hk : k < l.length) (b : α) :
    b ∈ l.eraseIdx k ↔ b ≠ l[k] ∧ b ∈ l := by
  rw [← hl.erase_getElem k hk, hl.mem_erase_iff]

/-- The running transaction has command `c`. -/
def Running (c : TextureCmd) (s : State) : Prop := s.gsu.state = .busy ∧ s.gsu.cmd = some c

/-- A block step for a pending block keeps the invariant, and writes in the output alone. -/
theorem Inv.blockStep {s : State} {c : TextureCmd} (h : Inv s) (hrun : Running c s) {k : Nat}
    (hk : k < s.gsu.pending.length) :
    ∃ t, blockStep c s.gsu.pending[k].1 s.gsu.pending[k].2 (s.dropPending k) = .next t ∧ Inv t ∧
      t.gsu = (s.dropPending k).gsu ∧ ∀ x, outUsed c x = false → t.mem.read x = s.mem.read x := by
  obtain ⟨hbusy, hcmd⟩ := hrun
  obtain ⟨c', hc', hlegal, hsub, hbefore⟩ := h.busy hbusy
  obtain rfl : c = c' := Option.some.inj (hcmd.symm.trans hc')
  obtain ⟨hin, hold, hnew⟩ := h.buffers c hbusy hcmd
  have hnodup : s.gsu.pending.Nodup := (nodup_blockGrid c).sublist hsub
  obtain ⟨m, hstep, hwf, himage, helse⟩ :=
    blockStep_image hlegal (hsub.subset (List.getElem_mem hk)) (s := s.dropPending k) h.memory
  refine ⟨_, hstep, ⟨hwf, blockRun_cur _ _, ?_, ?_⟩, rfl, helse⟩
  · simp only [GsuInv, State.withMem_gsu, State.withBdu_gsu, State.dropPending_gsu, hbusy]
    exact ⟨c, hcmd, hlegal, (List.eraseIdx_sublist _ _).trans hsub, hbefore⟩
  · intro c' _ hc'
    obtain rfl : c = c' := Option.some.inj (hcmd.symm.trans hc')
    simp only [State.withMem_gsu, State.withBdu_gsu, State.dropPending_gsu, State.withMem_mem, bytePending_iff,
      mem_eraseIdx_of_nodup hnodup hk]
    refine ⟨fun a ha => (helse a (hlegal.disjoint ha)).trans (hin a ha), fun off ho hp => ?_, fun off ho hp => ?_⟩
    · rw [himage off ho, if_neg hp.1]
      exact hold off ho hp.2
    · rw [himage off ho]
      split
      · exact imageByte_congr hin ho
      next hne => exact hnew off ho fun hmem => hp ⟨hne, hmem⟩

/-- What holds between the block steps of one GSU step that began in `s₀`. -/
structure LaneInv (c : TextureCmd) (s₀ s : State) : Prop where
  inv : Inv s
  running : Running c s
  outside : ∀ x, outUsed c x = false → s.mem.read x = s₀.mem.read x

theorem LaneInv.blockStep {c : TextureCmd} {s₀ s : State} (h : LaneInv c s₀ s) {k : Nat}
    (hk : k < s.gsu.pending.length) :
    ∃ t, Machine.blockStep c s.gsu.pending[k].1 s.gsu.pending[k].2 (s.dropPending k) = .next t ∧ LaneInv c s₀ t := by
  obtain ⟨t, ht, hinv, hgsu, hout⟩ := h.inv.blockStep h.running hk
  refine ⟨t, ht, hinv, ?_, fun x hx => (hout x hx).trans (h.outside x hx)⟩
  rw [Running, hgsu]
  exact h.running

theorem Inv.blockSteps {s t : State} {c : TextureCmd} (h : Inv s) (hrun : Running c s) {n pick : Nat}
    (ht : blockSteps c n pick s = .next t) : LaneInv c s t := by
  obtain ⟨_, u, -, -, hu, hlane⟩ := blockSteps_induction (c := c) (fun _ => LaneInv c s)
    (fun _ _ _ hk hlane => hlane.blockStep hk) n pick 0 s ⟨h, hrun, fun _ _ => rfl⟩
  rw [ht] at hu
  exact (Host.Outcome.next.inj hu) ▸ hlane

/-- A step of a BUSY GSU keeps the invariant. -/
theorem Inv.gsuMove {s t : State} (h : Inv s) (hb : s.gsu.state = .busy) (ht : gsuMove s = .next t) : Inv t := by
  rcases gsuMove_cases ht with ⟨-, rfl⟩ | ⟨-, c, hc, hsteps⟩
  · exact h.complete
  · exact (h.blockSteps ⟨hb, hc⟩ hsteps).inv

/-- A step of a BUSY GSU changes memory in the output of its command alone (20_memory R42). -/
theorem gsuMove_read_of_ne {s t : State} (h : Inv s) (hb : s.gsu.state = .busy) (ht : gsuMove s = .next t) {x : Nat}
    (hx : t.mem.read x ≠ s.mem.read x) : ∃ c, Running c s ∧ outUsed c x = true := by
  rcases gsuMove_cases ht with ⟨-, rfl⟩ | ⟨-, c, hc, hsteps⟩
  · exact absurd rfl hx
  · refine ⟨c, ⟨hb, hc⟩, ?_⟩
    by_contra hout
    exact hx ((h.blockSteps ⟨hb, hc⟩ hsteps).outside x (Bool.not_eq_true _ ▸ hout))

/-! The host's actions. -/

/-- Everything a host action that answers a next state can have done: something on the scratch registers and the
replies, a write, a reset, or the issue step. -/
theorem hostAct_cases {s t : State} {a : HostAction} (h : hostAct a s = .next t) :
    (t.gsu = s.gsu ∧ t.mem = s.mem ∧
      (t.scratch = s.scratch ∨ ∃ b, t.scratch = blockRun b (Scratch.free s.draws))) ∨
    (∃ addr bs, a = .write addr bs ∧ (∀ k < bs.length, s.claimed (addr + k) = false) ∧
      t = s.withMem (s.mem.writeBytes addr bs)) ∨
    (a = .reset ∧ t.gsu = Gsu.reset ∧ t.mem = s.memAfterReset ∧ t.scratch = Scratch.free s.draws) ∨
    (∃ c, a = .decodeTexture c ∧ s.gsu.state = .idle ∧ c.dimsFit = true ∧ buffersOverlap c = false ∧ t = s.issue c) := by
  cases a with
  | decodeBlock bs =>
    have h : exec (.decodeBlock bs) s = .next t := h
    by_cases hl : bs.length = 16
    · rw [exec_decodeBlock hl] at h
      cases h
      exact .inl ⟨rfl, rfl, .inr ⟨_, rfl⟩⟩
    · rw [exec_decodeBlock_refused hl] at h
      cases h
  | decodeTexture c => exact .inr (.inr (.inr ⟨c, rfl, exec_decodeTexture_next.1 h⟩))
  | write addr bs =>
    have h : hostWrite addr bs s = .next t := h
    by_cases hfree : ∀ k < bs.length, s.claimed (addr + k) = false
    · rw [hostWrite_of_free hfree] at h
      cases h
      exact .inr (.inl ⟨addr, bs, rfl, hfree, rfl⟩)
    · push Not at hfree
      obtain ⟨k, hk, hc⟩ := hfree
      rw [hostWrite_of_claimed hk (by simpa using hc)] at h
      cases h
  | reset =>
    cases h
    exact .inr (.inr (.inl ⟨rfl, rfl, rfl, rfl⟩))
  | wait =>
    cases h
    exact .inl ⟨rfl, rfl, .inl rfl⟩
  | read base lo hi =>
    cases h
    exact .inl ⟨rfl, rfl, .inl rfl⟩
  | poll =>
    cases h
    exact .inl ⟨rfl, rfl, .inl rfl⟩

/-- Memory that reads as before on every claimed byte keeps the invariant. -/
theorem Inv.withMem {s : State} (h : Inv s) {m : Memory} (hm : Memory.wf m)
    (hclaimed : ∀ x, s.claimed x = true → m.read x = s.mem.read x) : Inv (s.withMem m) := by
  refine ⟨hm, h.cursor, h.gsu, fun c hb hc => ?_⟩
  obtain ⟨hin, hold, hnew⟩ := h.buffers c hb hc
  have hinput : ∀ a, inUsed c a = true → m.read a = s.mem.read a := fun a ha =>
    hclaimed a (by rw [claimed_of_busy (s := s) hb hc, ha, Bool.true_or])
  have houtput : ∀ off < needOut c, m.read (c.outBase + off) = s.mem.read (c.outBase + off) := fun off ho =>
    hclaimed _ (by rw [claimed_of_busy (s := s) hb hc, (outUsed_iff c (c.outBase + off)).2 (by omega), Bool.or_true])
  exact ⟨fun a ha => (hinput a ha).trans (hin a ha), fun off ho hp => (houtput off ho).trans (hold off ho hp),
    fun off ho hp => (houtput off ho).trans (hnew off ho hp)⟩

/-- A write that covers no claimed byte leaves each of them as it was (70_reset R215). -/
theorem read_writeBytes_of_claimed {s : State} (hm : Memory.wf s.mem) {addr : Nat} {bs : List Byte}
    (hfree : ∀ k < bs.length, s.claimed (addr + k) = false) {x : Nat} (hx : s.claimed x = true) :
    (s.mem.writeBytes addr bs).read x = s.mem.read x := by
  rw [read_writeBytes hm, if_neg]
  rintro ⟨h1, h2⟩
  have := hfree (x - addr) (by omega)
  rw [Nat.add_sub_cancel' h1, hx] at this
  cases this

/-- A reset while BUSY writes in the output of the abandoned transaction, and while IDLE nothing (70_reset R210). -/
theorem memAfterReset_eq (s : State) : s.memAfterReset = s.mem ∨ ∃ c bs, Running c s ∧ bs.length = needOut c ∧
    s.memAfterReset = s.mem.writeBytes c.outBase bs := by
  cases hs : s.gsu.state
  · exact .inl (memAfterReset_of_idle hs)
  · rcases hc : s.gsu.cmd with _ | c
    · simp [State.memAfterReset, hs, hc]
    · exact .inr ⟨c, _, ⟨hs, hc⟩, by simp, memAfterReset_of_busy hs hc⟩

theorem Scratch.free_cur (draw : Nat) : (Scratch.free draw).cur.toNat ≤ 128 := by
  simp only [Scratch.free, BitVec.toNat_ofNat]
  omega

/-- A host action keeps the invariant. -/
theorem Inv.hostAct {s t : State} {a : HostAction} (h : Inv s) (ht : hostAct a s = .next t) : Inv t := by
  rcases hostAct_cases ht with ⟨hg, hm, hsc⟩ | ⟨addr, bs, -, hfree, rfl⟩ | ⟨-, hg, hm, hsc⟩ | ⟨c, -, -, hd, ho, rfl⟩
  · refine h.of_same hm ?_ hg
    rcases hsc with hsc | ⟨b, hsc⟩ <;> rw [hsc]
    · exact h.cursor
    · exact blockRun_cur b _
  · exact h.withMem (wf_writeBytes h.memory addr bs) fun x => read_writeBytes_of_claimed h.memory hfree
  · refine .of_idle (e := .none) ?_ (hsc ▸ Scratch.free_cur _) hg
    rw [hm]
    rcases memAfterReset_eq s with hm | ⟨c, bs, -, -, hm⟩ <;> rw [hm]
    · exact h.memory
    · exact wf_writeBytes h.memory _ _
  · exact h.issue hd ho

/-- A host action changes memory only where it writes, or where a reset abandons the output. -/
theorem hostAct_read_of_ne {s t : State} {a : HostAction} (hwf : Memory.wf s.mem) (ht : hostAct a s = .next t) {x : Nat}
    (hx : t.mem.read x ≠ s.mem.read x) :
    (∃ c, Running c s ∧ outUsed c x = true) ∨
      ∃ addr bs, a = .write addr bs ∧ addr ≤ x ∧ x < addr + bs.length := by
  have covered : ∀ {addr : Nat} {bs : List Byte}, (s.mem.writeBytes addr bs).read x ≠ s.mem.read x →
      addr ≤ x ∧ x < addr + bs.length := fun hne => by
    by_contra hout
    exact hne (by rw [read_writeBytes hwf, if_neg hout])
  rcases hostAct_cases ht with ⟨-, hm, -⟩ | ⟨addr, bs, rfl, -, rfl⟩ | ⟨-, -, hm, -⟩ | ⟨c, -, -, -, -, rfl⟩
  · exact absurd (by rw [hm]) hx
  · exact .inr ⟨addr, bs, rfl, covered hx⟩
  · rcases memAfterReset_eq s with hsame | ⟨c, bs, hrun, hlen, hw⟩
    · exact absurd (by rw [hm, hsame]) hx
    · rw [hm, hw] at hx
      exact .inl ⟨c, hrun, (outUsed_iff c x).2 (hlen ▸ covered hx)⟩
  · exact absurd (by rw [State.issue_mem]) hx

/-- A step keeps the invariant. -/
theorem Inv.step {s t : State} (h : Inv s) (ht : step s = .next t) : Inv t := by
  rcases step_cases ht with ⟨a, rest, u, -, hu, rfl⟩ | ⟨u, hgsu, hu, rfl⟩ | ⟨-, -, rfl⟩
  · exact (h.popAction.hostAct hu).redraw
  · exact (h.gsuMove hgsu.1 hu).redraw
  · exact h

end Sys2Proof.Machine

namespace Sys2Proof.Proofs.StateFamily
open Sys2Proof.Machine

/-- Settles O34: each of the three cases of a step keeps the invariant. -/
theorem stepKeepsTheInvariant : Obligations.StepKeepsTheInvariant := fun _ _ h ht => h.step ht

/-- Settles O3: the cursor moves over the widths of all fields, which sum to 128 for every partition. -/
theorem cursorEndsAt128 : Obligations.CursorEndsAt128 := by
  intro m blk
  have hsum := fieldWidths_sum m (extract m blk).1.part (extract_part_lt m blk)
  exact ⟨(extract_snd m blk).trans hsum, hsum⟩

/-- Settles O40: of what a step can do, only completion, an issue with a length error and a reset write the status. -/
theorem statusIsWrittenOnlyAtTheEnd : Obligations.StatusIsWrittenOnlyAtTheEnd := by
  intro s t ht hne
  rcases step_cases ht with ⟨a, rest, u, ⟨hq, -, -⟩, hu, rfl⟩ | ⟨u, ⟨hb, -⟩, hu, rfl⟩ | ⟨-, -, rfl⟩
  · rcases hostAct_gsu hu with hg | ⟨rfl, hg⟩ | ⟨c, rfl, -, rfl⟩
    · exact absurd (by simp [hg]) hne
    · exact .inr (.inr ⟨rest, hq, by simp [hg, Gsu.reset]⟩)
    · have hg := s.popAction.issue_gsu c
      rcases he : lengthError c with _ | e <;> rw [he] at hg
      · exact absurd (by simp [hg]) hne
      · exact .inr (.inl ⟨c, rest, hq, by simp [hg, he]⟩)
  · rcases gsuMove_cases hu with ⟨hp, rfl⟩ | ⟨-, c, -, hsteps⟩
    · exact .inl ⟨hb, hp, rfl, rfl⟩
    · obtain ⟨-, -, hstatus, -⟩ := blockSteps_frame hsteps
      exact absurd hstatus hne
  · exact absurd rfl hne

/-- Settles O41: a step that writes the command record begins or ends IDLE. -/
theorem commandIsFixedWhileBusy : Obligations.CommandIsFixedWhileBusy := by
  intro s t ht hs hbusy
  rcases step_cases ht with ⟨a, rest, u, -, hu, rfl⟩ | ⟨u, -, hu, rfl⟩ | ⟨-, -, rfl⟩
  · rcases hostAct_gsu hu with hg | ⟨-, hg⟩ | ⟨c, -, hidle, -⟩
    · simp [hg]
    · simp [hg, Gsu.reset] at hbusy
    · simp [hs] at hidle
  · rcases gsuMove_cases hu with ⟨-, rfl⟩ | ⟨-, c, -, hsteps⟩
    · cases hbusy
    · obtain ⟨-, hcmd, -⟩ := blockSteps_frame hsteps
      exact hcmd
  · rfl

/-- Settles O42: block steps and a reset write in the output of the running command, a host write where it says. -/
theorem memoryChangesOnlyInTheOutputOrByTheHost : Obligations.MemoryChangesOnlyInTheOutputOrByTheHost := by
  intro s t x h ht hx
  have inOutput : (∃ c, Running c s ∧ outUsed c x = true) → ∃ c, s.gsu.state = .busy ∧ s.gsu.cmd = some c ∧
      c.outBase ≤ x ∧ x < c.outBase + c.width * c.height * 4 := fun ⟨c, ⟨hb, hc⟩, hout⟩ =>
    ⟨c, hb, hc, (outUsed_iff c x).1 hout⟩
  rcases step_cases ht with ⟨a, rest, u, ⟨hq, -, -⟩, hu, rfl⟩ | ⟨u, ⟨hb, -⟩, hu, rfl⟩ | ⟨-, -, rfl⟩
  · rcases hostAct_read_of_ne h.popAction.memory hu hx with hout | ⟨addr, bs, rfl, hrange⟩
    · exact .inl (inOutput hout)
    · exact .inr ⟨addr, bs, rest, hq, hrange⟩
  · exact .inl (inOutput (gsuMove_read_of_ne h hb hu hx))
  · exact absurd rfl hx

/-- Settles O32: the GSU registers of State.reset are the spec's reset values, field by field. -/
theorem resetLeavesTheGsuIdle : Obligations.ResetLeavesTheGsuIdle := ⟨rfl, rfl, rfl, rfl⟩

/-- Settles O33: the GSU is IDLE, memory is empty and the cursor 0. -/
theorem resetMeetsTheInvariant : Obligations.ResetMeetsTheInvariant :=
  .of_idle (e := .none) Memory.wf_nil (Nat.zero_le 128) rfl

end Sys2Proof.Proofs.StateFamily
end

section
/-! PROOFS (family 20_memory.md). Memory accesses: no step leaves the declared buffers, what a READ gives, and the run of
a whole transaction, whose output is the image of its used input. -/

namespace Sys2Proof.Machine
open Memory Sys2Proof.Claims

/-! The moves of a BUSY GSU. -/

theorem gsuMove_of_pending_nil {s : State} {c : TextureCmd} (hc : s.gsu.cmd = some c) (hp : s.gsu.pending = []) :
    gsuMove s = .next s.complete := by
  simp [gsuMove, hc, hp]

theorem gsuMove_of_pending_ne_nil {s : State} {c : TextureCmd} (hc : s.gsu.cmd = some c) (hp : s.gsu.pending ≠ []) :
    gsuMove s = blockSteps c (lanesFiring s.turn) s.turn.pick s := by
  obtain ⟨q, qs, hq⟩ := List.exists_cons_of_ne_nil hp
  simp [gsuMove, hc, hq]

/-- What holds after `i` block steps of one GSU step that began in `s₀`: besides `LaneInv`, which blocks are left. -/
structure LaneProgress (c : TextureCmd) (s₀ : State) (i : Nat) (s : State) : Prop where
  lane : LaneInv c s₀ s
  sublist : s.gsu.pending.Sublist s₀.gsu.pending
  taken : s.gsu.pending.length + i = s₀.gsu.pending.length

theorem LaneProgress.blockStep {c : TextureCmd} {s₀ s : State} {i : Nat} (h : LaneProgress c s₀ i s) {k : Nat}
    (hk : k < s.gsu.pending.length) :
    ∃ t, Machine.blockStep c s.gsu.pending[k].1 s.gsu.pending[k].2 (s.dropPending k) = .next t ∧
      LaneProgress c s₀ (i + 1) t := by
  obtain ⟨t, ht, hlane⟩ := h.lane.blockStep hk
  obtain ⟨hgsu, -⟩ := blockStep_frame ht
  refine ⟨t, ht, hlane, ?_, ?_⟩
  · rw [hgsu]
    exact (List.eraseIdx_sublist _ k).trans h.sublist
  · rw [hgsu, State.dropPending_gsu, ← h.taken, List.length_eraseIdx_of_lt hk]
    omega

/-- While blocks are pending a step of the GSU answers, and takes at least one and at most LANES of them (44_gather
R175, R176). -/
theorem gsuMove_progress {s : State} {c : TextureCmd} (h : Inv s) (hrun : Running c s) (hp : s.gsu.pending ≠ []) :
    ∃ t j, gsuMove s = .next t ∧ 1 ≤ j ∧ j ≤ Config.lanes ∧ LaneProgress c s j t := by
  obtain ⟨hone, hlanes⟩ := lanesFiring_bounds s.turn
  obtain ⟨j, t, hj, hend, ht, hprog⟩ := blockSteps_induction (c := c) (LaneProgress c s)
    (fun _ _ _ hk hprog => hprog.blockStep hk) (lanesFiring s.turn) s.turn.pick 0 s
    ⟨⟨h, hrun, fun _ _ => rfl⟩, List.Sublist.refl _, rfl⟩
  rw [Nat.zero_add] at hprog
  refine ⟨t, j, (gsuMove_of_pending_ne_nil hrun.2 hp).trans ht, ?_, hj.trans hlanes, hprog⟩
  rcases hend with rfl | hnil
  · exact hone
  · have htaken := hprog.taken
    rw [hnil, List.length_nil, Nat.zero_add] at htaken
    exact htaken ▸ List.length_pos_of_ne_nil hp

/-- A BUSY GSU that meets the invariant always has a move. -/
theorem gsuMove_answers {s : State} (h : Inv s) (hb : s.gsu.state = .busy) : ∃ t, gsuMove s = .next t := by
  obtain ⟨c, hc, -⟩ := h.busy hb
  by_cases hp : s.gsu.pending = []
  · exact ⟨_, gsuMove_of_pending_nil hc hp⟩
  · obtain ⟨t, -, ht, -⟩ := gsuMove_progress h ⟨hb, hc⟩ hp
    exact ⟨t, ht⟩

/-! No host action faults: the faults are those of the GSU's own accesses. -/

theorem exec_decodeTexture_ne_fault (c : TextureCmd) (s : State) (e : Fault) :
    exec (.decodeTexture c) s ≠ .fault e := by
  rw [exec, execDecodeTexture]
  split
  · simp
  · split
    · simp
    · split <;> simp

theorem hostWrite_ne_fault (addr : Nat) (bs : List Byte) (s : State) (e : Fault) : hostWrite addr bs s ≠ .fault e := by
  unfold hostWrite
  split <;> simp

theorem hostAct_ne_fault (a : HostAction) (s : State) (e : Fault) : hostAct a s ≠ .fault e := by
  cases a with
  | decodeBlock bs =>
    show exec (.decodeBlock bs) s ≠ .fault e
    by_cases hl : bs.length = 16
    · simp [exec_decodeBlock hl]
    · simp [exec_decodeBlock_refused hl]
  | decodeTexture c => exact exec_decodeTexture_ne_fault c s e
  | write addr bs => exact hostWrite_ne_fault addr bs s e
  | wait => exact nofun
  | read base lo hi => exact nofun
  | poll => exact nofun
  | reset => exact nofun

/-- Drawing the next schedule after a move raises no fault of its own. -/
theorem eq_fault_of_redraw {o : Host.Outcome State Fault Refusal} {e : Fault}
    (h : (andThen o fun t => .next t.redraw) = (.fault e : Host.Outcome State Fault Refusal)) : o = .fault e := by
  cases o with
  | next t => cases h
  | fault r => exact h
  | refused r => cases h

/-! What a READ gives. -/

theorem hostTakes_of_hostMoves {s : State} {a : HostAction} {rest : List HostAction} (h : HostMoves s)
    (hq : s.queue = a :: rest) : HostTakes s a rest := by
  obtain ⟨hready, hturn⟩ := h
  obtain ⟨a', rest', hq', hwait⟩ := (hostReady_iff s).1 hready
  obtain ⟨rfl, -⟩ := List.cons.inj (hq.symm.trans hq')
  exact ⟨hq, hwait, hturn⟩

@[simp] theorem length_hostBytes (s : State) (base lo hi : Nat) : (s.hostBytes base lo hi).length = hi - lo := by
  simp [State.hostBytes]

theorem getD_hostBytes (s : State) (base lo : Nat) {hi k : Nat} (hk : k < hi - lo) :
    (s.hostBytes base lo hi).getD k 0 = s.hostByte (base + lo + k) := by
  rw [List.getD_eq_getElem _ _ (by simpa using hk)]
  simp [State.hostBytes]

/-- Outside the output of a running transaction the host reads memory (20_memory R47). -/
theorem hostByte_of_not_inFlux {s : State} {a : Nat} (h : s.outputInFlux a = false) : s.hostByte a = s.mem.read a := by
  simp [State.hostByte, h]

/-- A byte is not in flux while IDLE, nor outside OUT[0 .. NEED_OUT) of the command. -/
theorem outputInFlux_eq_false {s : State} {a : Nat}
    (h : s.gsu.state = .idle ∨ ∃ c, s.gsu.cmd = some c ∧ ¬ (c.outBase ≤ a ∧ a < c.outBase + needOut c)) :
    s.outputInFlux a = false := by
  cases hs : s.gsu.state with
  | idle => exact outputInFlux_of_idle hs a
  | busy =>
    obtain ⟨c, hc, hout⟩ := h.resolve_left (by simp [hs])
    rw [outputInFlux_of_busy hs hc]
    exact (outUsed_false_iff c a).2 hout

/-! The run of a transaction, from its issue to its completion. -/

/-- `t` ends the transaction of `c` that `s` runs: OK, the image of the input in `before` in OUT[0 .. NEED_OUT), and
the rest of memory, the script and the replies as in `s` (44_gather R177). -/
structure Completed (c : TextureCmd) (before : Memory) (s t : State) : Prop where
  state : t.gsu.state = .idle
  status : t.gsu.status = .ok
  queue : t.queue = s.queue
  replies : t.replies = s.replies
  image : ∀ off < needOut c, t.mem.read (c.outBase + off) = imageByte c before off
  outside : ∀ x, outUsed c x = false → t.mem.read x = s.mem.read x

/-- With no block pending every byte of the output is final. -/
theorem completed_of_pending_nil {s : State} {c : TextureCmd} (h : Inv s) (hrun : Running c s)
    (hp : s.gsu.pending = []) : Completed c s.gsu.before s s.complete.redraw := by
  obtain ⟨-, -, hfinal⟩ := h.buffers c hrun.1 hrun.2
  exact ⟨rfl, rfl, rfl, rfl, fun off ho => hfinal off ho (by simp [bytePending_iff, hp]), fun _ _ => rfl⟩

/-- While the host waits for a BUSY GSU the GSU moves. -/
theorem gsuTakes_of_wait {s : State} {rest : List HostAction} (hb : s.gsu.state = .busy)
    (hq : s.queue = .wait :: rest) : GsuTakes s :=
  ⟨hb, .inl (by simp [State.hostReady, hq, hb])⟩

/-- A running transaction that the host waits for ends with its image, by induction on the number of pending blocks:
each GSU step takes one at least, and the last step completes (44_gather R176, R177). -/
theorem run_completes {s : State} {c : TextureCmd} {rest : List HostAction} (h : Inv s) (hrun : Running c s)
    (hq : s.queue = .wait :: rest) :
    ∃ k t, k ≤ s.gsu.pending.length + 1 ∧ core.run k s = .next t ∧ Completed c s.gsu.before s t := by
  induction hn : s.gsu.pending.length using Nat.strong_induction_on generalizing s with
  | h n ih =>
    have hstep := step_gsu (gsuTakes_of_wait hrun.1 hq)
    by_cases hp : s.gsu.pending = []
    · rw [gsuMove_of_pending_nil hrun.2 hp, andThen_next] at hstep
      exact ⟨1, _, by omega, run_succ_of_next hstep 0, completed_of_pending_nil h hrun hp⟩
    · obtain ⟨u, j, hu, hj, -, hprog⟩ := gsuMove_progress h hrun hp
      obtain ⟨-, -, -, hbefore, hqueue, hreplies, -⟩ :=
        blockSteps_frame ((gsuMove_of_pending_ne_nil hrun.2 hp).symm.trans hu)
      have htaken := hprog.taken
      obtain ⟨k, t, hk, hrunk, hend⟩ := ih u.gsu.pending.length (by omega) (s := u.redraw) hprog.lane.inv.redraw
        hprog.lane.running (hqueue.trans hq) rfl
      rw [hu, andThen_next] at hstep
      refine ⟨k + 1, t, by omega, (run_succ_of_next hstep k).trans hrunk, hend.state, hend.status,
        hend.queue.trans hqueue, hend.replies.trans hreplies, fun off ho => hbefore ▸ hend.image off ho,
        fun x hx => (hend.outside x hx).trans (hprog.lane.outside x hx)⟩

/-- The issue step of a legal command (44_gather R173, R174). -/
theorem issue_gsu_of_legal {c : TextureCmd} (hl : CommandLegal c) (s : State) :
    (s.issue c).gsu = ⟨.busy, some c, blockGrid c, s.gsu.status, s.mem⟩ := by
  obtain ⟨-, -, hlen⟩ := hl
  rw [State.issue_gsu, hlen]

theorem step_decodeTexture {s : State} {c : TextureCmd} {rest : List HostAction} (hi : s.gsu.state = .idle)
    (hl : CommandLegal c) (hq : s.queue = .decodeTexture c :: rest) :
    step s = .next (s.popAction.issue c).redraw := by
  obtain ⟨hdims, hdisjoint, -⟩ := hl
  have hact : hostAct (.decodeTexture c) s.popAction = .next (s.popAction.issue c) :=
    exec_decodeTexture_next.2 ⟨hi, hdims, hdisjoint, rfl⟩
  rw [step_host ⟨hq, nofun, .inl hi⟩, hact, andThen_next]

/-- A legal DECODE_TEXTURE that the host waits for runs to its end within 1 + WB*HB + 1 steps, whatever the schedule, and
leaves the image of the memory it was issued on. -/
theorem texture_completes {s : State} {c : TextureCmd} {rest : List HostAction} (h : Inv s)
    (hi : s.gsu.state = .idle) (hl : CommandLegal c) (hq : s.queue = .decodeTexture c :: .wait :: rest) :
    ∃ k t, k ≤ 1 + gridWidth c * gridHeight c + 1 ∧ core.run k s = .next t ∧ Completed c s.mem s.popAction t := by
  have hstep := step_decodeTexture hi hl hq
  have hgsu := issue_gsu_of_legal hl s.popAction
  obtain ⟨k, t, hk, hrun, hend⟩ := run_completes (c := c) (rest := rest) (h.step hstep)
    (by simp [Running, hgsu]) (by simp [hq])
  simp only [State.redraw_gsu, hgsu, length_blockGrid] at hk hend
  refine ⟨k + 1, t, by omega, (run_succ_of_next hstep k).trans hrun, hend.state, hend.status, ?_, ?_, hend.image, ?_⟩
  · simpa using hend.queue
  · simpa using hend.replies
  · simpa using hend.outside

end Sys2Proof.Machine

namespace Sys2Proof.Proofs.MemoryFamily
open Sys2Proof.Machine

/-- Settles O50: both runs end with the image of their own memory, and the image is a function of the used input. -/
theorem outputDependsOnTheUsedInputAlone : Obligations.OutputDependsOnTheUsedInputAlone := by
  intro s s' c rest rest' h h' hi hi' hl hq hq' hsame
  obtain ⟨k, t, -, hrun, hend⟩ := texture_completes h hi hl hq
  obtain ⟨k', t', -, hrun', hend'⟩ := texture_completes h' hi' hl hq'
  refine ⟨k, k', t, t', hrun, hrun', ?_, ?_, hend.state, hend'.state, hend.status, hend'.status, fun off ho => ?_⟩
  · simpa [hq] using hend.queue
  · simpa [hq'] using hend'.queue
  · rw [hend.image off ho, hend'.image off ho]
    exact imageByte_congr hsame ho

/-- Settles O35: no host action faults, and the GSU, the one that accesses the buffers, always has a move. -/
theorem noStepFaults : Obligations.NoStepFaults := by
  intro s e h hfault
  rcases move_cases s with ⟨a, rest, hhost⟩ | hgsu | ⟨hi, hr⟩
  · rw [step_host hhost] at hfault
    exact hostAct_ne_fault a _ e (eq_fault_of_redraw hfault)
  · obtain ⟨t, ht⟩ := gsuMove_answers h hgsu.1
    rw [step_gsu hgsu, ht] at hfault
    cases hfault
  · rw [step_still hi hr] at hfault
    cases hfault

/-- Settles O44: the bytes are read one by one, and only those in flux are free values. -/
theorem hostReadGivesTheBytes : Obligations.HostReadGivesTheBytes := by
  intro s base lo hi rest hmoves hq
  refine ⟨_, s.popAction.hostBytes base lo hi, step_host (hostTakes_of_hostMoves hmoves hq), rfl,
    length_hostBytes _ _ _ _, fun k hk hout => ?_, rfl, rfl, rfl, ?_⟩
  · rw [getD_hostBytes _ _ _ hk]
    exact hostByte_of_not_inFlux (outputInFlux_eq_false hout)
  · simp [hq]

end Sys2Proof.Proofs.MemoryFamily
end

section
/-! PROOFS (family 30_encoding.md). The encoding: the decoder reads back what the encoder packs and the encoder packs
what the decoder reads, every field from the position of its table. -/

namespace Sys2Proof
open Sys2Proof.Claims

/-! The block of an instruction, and the bytes of a block. -/

/-- Block.instr and Instr.block? are inverse. -/
theorem block?_instr (b : Block) : b.instr.block? = some b := by
  cases b with
  | mode m f => cases m <;> rfl
  | modeless => rfl

theorem instr_of_block? {i : Instr} {b : Block} (h : i.block? = some b) : b.instr = i := by
  cases i <;> cases h <;> rfl

theorem instr_wf (b : Block) : b.instr.wf = b.wf := by
  cases b with
  | mode m f => cases m <;> rfl
  | modeless => rfl

theorem encode_instr (b : Block) : encode b.instr = some (leBytes 16 (encodeBlk b)) := by
  rw [encode, block?_instr]; rfl

/-- Only the nine formats have an encoding (30_encoding R77). -/
theorem encode_eq_some {i : Instr} {bs : List Byte} (h : encode i = some bs) :
    ∃ b : Block, b.instr = i ∧ leBytes 16 (encodeBlk b) = bs := by
  obtain ⟨b, hb, hbs⟩ := Option.map_eq_some_iff.1 h
  exact ⟨b, instr_of_block? hb, hbs⟩

theorem decode_of_length {bs : List Byte} (h : bs.length = 16) :
    decode bs = .ok (decodeBlk (leNat bs)).instr := by
  rw [decode, Machine.decodeBytes_of_length h]

theorem decode_eq_ok {bs : List Byte} {i : Instr} (h : decode bs = .ok i) :
    bs.length = 16 ∧ (decodeBlk (leNat bs)).instr = i := by
  by_cases hlen : bs.length = 16
  · rw [decode_of_length hlen] at h
    exact ⟨hlen, Except.ok.inj h⟩
  · rw [decode, Machine.decodeBytes_of_length_ne hlen] at h
    cases h

/-! Packing and reading are inverse on blocks. -/

/-- What well-formedness says of each field. -/
theorem wf_iff (m : Mode) (f : BlockFields) : f.wf m = true ↔
    f.part < 2 ^ (Tables.modeParams m).pb ∧ f.rot < 2 ^ (Tables.modeParams m).rb ∧
    f.isel < 2 ^ (Tables.modeParams m).isb ∧ fitsAll (colourWidths m) f.red = true ∧
    fitsAll (colourWidths m) f.green = true ∧ fitsAll (colourWidths m) f.blue = true ∧
    fitsAll (alphaWidths m) f.alpha = true ∧ fitsAll (uniquePWidths m) f.uniqueP = true ∧
    fitsAll (sharedPWidths m) f.sharedP = true ∧ fitsAll (idxWidths m f.part) f.idx = true ∧
    fitsAll (idx2Widths m) f.idx2 = true := by
  simp only [BlockFields.wf, BlockFields.partFits, BlockFields.rotFits, BlockFields.iselFits, BlockFields.colourFits,
    BlockFields.alphaFits, BlockFields.uniquePFits, BlockFields.sharedPFits, BlockFields.idxFits, BlockFields.idx2Fits,
    Bool.and_eq_true, decide_eq_true_eq, and_assoc]

/-- Groups of fields with the same widths end at the same place of a stream. -/
theorem append_inj_of_fitsAll {ws vs vs' us us' : List Nat} (hv : fitsAll ws vs = true) (hv' : fitsAll ws vs' = true)
    (h : vs ++ us = vs' ++ us') : vs = vs' ∧ us = us' :=
  List.append_inj h ((fitsAll_length hv).symm.trans (fitsAll_length hv'))

/-- The stream of a block's values determines its fields: the partition id fixes every later width (30_encoding R62). -/
theorem values_injective {m : Mode} {f g : BlockFields} (hf : f.wf m = true) (hg : g.wf m = true)
    (h : f.values = g.values) : f = g := by
  obtain ⟨-, -, -, fred, fgreen, fblue, falpha, funique, fshared, fidx, fidx2⟩ := (wf_iff m f).1 hf
  obtain ⟨-, -, -, gred, ggreen, gblue, galpha, gunique, gshared, gidx, gidx2⟩ := (wf_iff m g).1 hg
  simp only [BlockFields.values, List.append_assoc, List.cons_append, List.nil_append, List.cons.injEq] at h
  obtain ⟨hpart, hrot, hisel, h⟩ := h
  obtain ⟨hred, h⟩ := append_inj_of_fitsAll fred gred h
  obtain ⟨hgreen, h⟩ := append_inj_of_fitsAll fgreen ggreen h
  obtain ⟨hblue, h⟩ := append_inj_of_fitsAll fblue gblue h
  obtain ⟨halpha, h⟩ := append_inj_of_fitsAll falpha galpha h
  obtain ⟨hunique, h⟩ := append_inj_of_fitsAll funique gunique h
  obtain ⟨hshared, h⟩ := append_inj_of_fitsAll fshared gshared h
  obtain ⟨hidx, hidx2⟩ := append_inj_of_fitsAll fidx (hpart ▸ gidx) h
  cases f
  cases g
  simp_all only

/-- An encoded block has 128 bits. -/
theorem encodeBlk_lt {b : Block} (h : b.wf = true) : encodeBlk b < 256 ^ 16 := by
  cases b with
  | modeless => exact Nat.pow_pos (by norm_num)
  | mode m f =>
    obtain ⟨hpart, -⟩ := (wf_iff m f).1 h
    have hfits : fitsAll ((m.number + 1) :: fieldWidths m f.part) (2 ^ m.number :: f.values) = true := by
      simp [fitsAll, fitsAll_values h, Nat.pow_lt_pow_right]
    have hlt := pack_lt hfits
    rwa [List.sum_cons, fieldWidths_sum m f.part hpart] at hlt

/-- The selector bits of an encoded block (30_encoding R76). -/
theorem encodeBlk_selector (m : Mode) (f : BlockFields) :
    encodeBlk (.mode m f) % 2 ^ (m.number + 1) = 2 ^ m.number := by
  rw [encodeBlk, pack, Nat.add_mul_mod_self_left, Nat.mod_eq_of_lt (Nat.pow_lt_pow_right (by norm_num) (by omega))]

/-- After the selector an encoded block holds its fields, packed. -/
theorem encodeBlk_fields (m : Mode) (f : BlockFields) :
    encodeBlk (.mode m f) / 2 ^ (m.number + 1) = pack (fieldWidths m f.part) f.values := by
  rw [encodeBlk, pack, Nat.add_mul_div_left _ _ (by positivity),
    Nat.div_eq_of_lt (Nat.pow_lt_pow_right (by norm_num) (by omega)), Nat.zero_add]

theorem extract_encodeBlk {m : Mode} {f : BlockFields} (h : f.wf m = true) :
    (extract m (encodeBlk (.mode m f))).1 = f := by
  have hread := readMany_pack (fitsAll_values h) (encodeBlk_fields m f)
  have hpart : (extract m (encodeBlk (.mode m f))).1.part = f.part := (List.cons.inj hread).1
  exact values_injective (extract_wf m _) h (by rw [extract_values, hpart, hread])

theorem decodeBlk_of_modeDetect {m : Mode} {blk : Nat} (h : modeDetect blk = some m) :
    decodeBlk blk = .mode m (extract m blk).1 := by
  rw [decodeBlk, h]

theorem decodeBlk_of_modeDetect_none {blk : Nat} (h : modeDetect blk = none) : decodeBlk blk = .modeless := by
  rw [decodeBlk, h]

theorem decodeBlk_encodeBlk {b : Block} (h : b.wf = true) : decodeBlk (encodeBlk b) = b := by
  cases b with
  | mode m f =>
    rw [decodeBlk_of_modeDetect (modeDetect_of_selector (encodeBlk_selector m f)), extract_encodeBlk h]
  | modeless => exact decodeBlk_of_modeDetect_none (modeDetect_none.2 rfl)

/-- The encoder packs the fields the decoder read, and below them the selector bits it found. -/
theorem encodeBlk_extract {m : Mode} {blk : Nat} (h : modeDetect blk = some m) (hlt : blk < 256 ^ 16) :
    encodeBlk (.mode m (extract m blk).1) = blk := by
  have hsum := fieldWidths_sum m _ (extract_part_lt m blk)
  calc encodeBlk (.mode m (extract m blk).1)
    _ = 2 ^ m.number + 2 ^ (m.number + 1) *
          (blk / 2 ^ (m.number + 1) % 2 ^ (fieldWidths m (extract m blk).1.part).sum) := by
      rw [encodeBlk, pack, extract_values, pack_readMany]
    _ = blk % 2 ^ (m.number + 1 + (fieldWidths m (extract m blk).1.part).sum) := by
      rw [Nat.pow_add 2 (m.number + 1), Nat.mod_mul, selector_of_modeDetect h]
    _ = blk := by
      rw [hsum]
      exact Nat.mod_eq_of_lt hlt

/-- Encoding a decoded block gives it back, unless it has no mode. -/
theorem encodeBlk_decodeBlk {blk : Nat} (hlt : blk < 256 ^ 16) (h : decodeBlk blk ≠ .modeless) :
    encodeBlk (decodeBlk blk) = blk := by
  cases hm : modeDetect blk with
  | some m => rw [decodeBlk_of_modeDetect hm, encodeBlk_extract hm hlt]
  | none => exact absurd (decodeBlk_of_modeDetect_none hm) h

theorem decodeBlk_wf (blk : Nat) : (decodeBlk blk).wf = true := by
  cases h : modeDetect blk with
  | some m => rw [decodeBlk_of_modeDetect h]; exact extract_wf m blk
  | none => rw [decodeBlk_of_modeDetect_none h]; rfl

/-! The position of each index (30_encoding R71). -/

/-- Fields of widths `w 0`, `w 1`, … stand at the positions that the recursion of 30_encoding R71 gives. -/
theorem position_eq_sum {pos w : Nat → Nat} (hpos : ∀ p, pos (p + 1) = pos p + w p) (p : Nat) :
    pos p = pos 0 + ((List.range p).map w).sum := by
  induction p with
  | zero => rfl
  | succ p ih => rw [hpos, ih, List.sum_range_succ, Nat.add_assoc]

/-- Field `p` of a stream is read at its position and width. -/
theorem getD_readMany_range {pos w : Nat → Nat} (hpos : ∀ p, pos (p + 1) = pos p + w p) (blk : Nat) {n p : Nat}
    (hp : p < n) : (readMany blk ((List.range n).map w) (pos 0)).1.getD p 0 = getBits blk (pos p) (w p) := by
  rw [getD_readMany _ _ _ _ (by simpa using hp), ← List.map_take, List.take_range, Nat.min_eq_left hp.le,
    ← position_eq_sum hpos]
  simp [hp]

/-- The rule's numbers NS and IB are those of the mode table (30_encoding R61). -/
theorem wI_eq_idxWidth (m : Mode) (part p : Nat) : wI m part p = idxWidth m part p := by
  cases m <;> rfl

/-- The primary indices begin at IS. -/
theorem extract_idx (m : Mode) (blk : Nat) :
    (extract m blk).1.idx = (readMany blk (idxWidths m (extract m blk).1.part) (indexStart m)).1 := by
  cases m <;> rfl

/-- From IS on the cursor moves over the two index streams. -/
theorem extract_snd_from_indexStart (m : Mode) (blk : Nat) : (extract m blk).2 =
    indexStart m + (idxWidths m (extract m blk).1.part).sum + (idx2Widths m).sum := by
  simp only [extract, readMany_snd]
  cases m <;> rfl

/-- The primary indices end where the secondary stream begins, and that one ends at the block's last bit. -/
theorem posI_end (m : Mode) (blk : Nat) : posI m (extract m blk).1.part 16 + (idx2Widths m).sum = 128 := by
  obtain ⟨hcursor, -⟩ := Proofs.StateFamily.cursorEndsAt128 m blk
  rw [position_eq_sum (pos := posI m (extract m blk).1.part) (fun _ => rfl), funext (wI_eq_idxWidth m _)]
  exact (extract_snd_from_indexStart m blk).symm.trans hcursor

end Sys2Proof

namespace Sys2Proof.Proofs.EncodingFamily
open Sys2Proof.Machine Sys2Proof.Claims

/-- Settles O7: an instruction with an encoding is that of a block, whose selector and packed fields read back alike. -/
theorem decodeOfEncodeIsTheInstruction : Obligations.DecodeOfEncodeIsTheInstruction := by
  intro i bs hwf henc
  obtain ⟨b, rfl, rfl⟩ := encode_eq_some henc
  rw [instr_wf] at hwf
  rw [decode_of_length (length_leBytes _ _), leNat_leBytes _ _ (encodeBlk_lt hwf), decodeBlk_encodeBlk hwf]

/-- Settles O5: each stream is read from its start over its widths, and the primary one leaves 47 bits to the secondary
in mode 4, 31 in mode 5 and none in the other modes. -/
theorem indicesStandWhereTheRuleSays : Obligations.IndicesStandWhereTheRuleSays := by
  refine ⟨fun m blk p hp => ?_, fun blk p hp => ?_, fun blk p hp => ?_, fun m blk => ?_, rfl, rfl⟩
  · rw [extract_idx, idxWidths, ← funext (wI_eq_idxWidth m _)]
    exact getD_readMany_range (pos := posI m _) (fun _ => rfl) blk hp
  · have hread : (extract .m4 blk).1.idx2 = (readMany blk ((List.range 16).map (wJ 3)) 81).1 := rfl
    rw [hread]
    exact getD_readMany_range (pos := posJ 3 81) (fun _ => rfl) blk hp
  · have hread : (extract .m5 blk).1.idx2 = (readMany blk ((List.range 16).map (wJ 2)) 97).1 := rfl
    rw [hread]
    exact getD_readMany_range (pos := posJ 2 97) (fun _ => rfl) blk hp
  · have hend : posI m (extract m blk).1.part 16 + (idx2Widths m).sum = 128 := posI_end m blk
    cases m <;> exact Nat.add_right_cancel hend

/-- Settles O8: the bytes are those of their number, and the encoder packs the fields the decoder read into it. -/
theorem encodeOfDecodeIsTheBlock : Obligations.EncodeOfDecodeIsTheBlock := by
  intro bs i hdec hne
  obtain ⟨hlen, rfl⟩ := decode_eq_ok hdec
  have hmode : decodeBlk (leNat bs) ≠ .modeless := fun h => hne (by rw [h]; rfl)
  have hlt : leNat bs < 256 ^ 16 := hlen ▸ leNat_lt bs
  rw [encode_instr, encodeBlk_decodeBlk hlt hmode, ← hlen, leBytes_leNat]

/-- Settles O1: nine blocks, each decoded by evaluation. -/
theorem sampleBlocksDecode : Obligations.SampleBlocksDecode := by
  refine ⟨?_, ?_, ?_, ?_, ?_, ?_, ?_, ?_, ?_⟩ <;> decide

/-- Settles O4: the widths before the index region do not depend on the block, so the cursor of each read evaluates to
the position of the table. One line for each mode. -/
theorem fieldsStandAtTheTablesPositions : Obligations.FieldsStandAtTheTablesPositions := by
  intro blk
  exact ⟨⟨rfl, rfl, rfl, rfl, rfl⟩,
    ⟨rfl, rfl, rfl, rfl, rfl⟩,
    ⟨rfl, rfl, rfl, rfl⟩,
    ⟨rfl, rfl, rfl, rfl, rfl⟩,
    ⟨rfl, rfl, rfl, rfl, rfl, rfl⟩,
    ⟨rfl, rfl, rfl, rfl, rfl⟩,
    ⟨rfl, rfl, rfl, rfl, rfl⟩,
    ⟨rfl, rfl, rfl, rfl, rfl, rfl⟩⟩

/-- Settles O6: a block without a mode has no fields, and the fields of the others are read within their widths. -/
theorem everyBlockDecodesWellFormed : Obligations.EveryBlockDecodesWellFormed := decodeBlk_wf

end Sys2Proof.Proofs.EncodingFamily
end

section
/-! PROOFS (family 40_mode_extractor.md). The block decoder: the mode a block has, what the chain MFX, PLE, EUI, PCC
leaves in each register for every mode, and from it the result of each format, whose numbers the mode's row of the mode
table gives. -/

namespace Sys2Proof

/-! The selector bits, one by one (40_mode R90). -/

theorem mod_two_pow_eq_zero_iff (blk n : Nat) : blk % 2 ^ n = 0 ↔ ∀ k < n, blk.testBit k = false := by
  constructor
  · intro h k hk
    have hbit := congrArg (Nat.testBit · k) h
    simpa [Nat.testBit_mod_two_pow, hk] using hbit
  · intro h
    refine Nat.eq_of_testBit_eq fun k => ?_
    by_cases hk : k < n <;> simp [Nat.testBit_mod_two_pow, hk, h]

/-- The selector of a mode is its own bit over clear ones (30_encoding R76). -/
theorem selector_iff_testBit (blk n : Nat) :
    blk % 2 ^ (n + 1) = 2 ^ n ↔ blk.testBit n = true ∧ ∀ k < n, blk.testBit k = false := by
  have hlt : blk % 2 ^ n < 2 ^ n := Nat.mod_lt _ (by positivity)
  rw [← mod_two_pow_eq_zero_iff, Nat.mod_pow_succ, Nat.testBit_eq_decide_div_mod_eq]
  rcases Nat.mod_two_eq_zero_or_one (blk / 2 ^ n) with hbit | hbit
  · simp [hbit, hlt.ne]
  · simp [hbit]

theorem modeDetect_eq_some_iff {blk : Nat} {m : Mode} :
    modeDetect blk = some m ↔ blk.testBit m.number = true ∧ ∀ k < m.number, blk.testBit k = false :=
  Iff.trans ⟨selector_of_modeDetect, modeDetect_of_selector⟩ (selector_iff_testBit blk m.number)

theorem modeDetect_eq_none_iff {blk : Nat} : modeDetect blk = none ↔ ∀ k < 8, blk.testBit k = false :=
  modeDetect_none.trans (mod_two_pow_eq_zero_iff blk 8)

end Sys2Proof

namespace Sys2Proof.Machine
open Sys2Proof.Claims

/-- The MODE a decode writes is what mode detection answers (40_mode R90). -/
theorem blockRun_decodeBlk_mode (blk : Nat) (sc : Scratch) :
    (blockRun (decodeBlk blk) sc).mode = (modeDetect blk).elim .invalid .valid := by
  cases h : modeDetect blk with
  | some m => rw [decodeBlk_of_modeDetect h, blockRun_mode, Option.elim_some]
  | none => rw [decodeBlk_of_modeDetect_none h]; rfl

/-! What a block of any mode leaves in each register. -/

/-- The PCC writes no register but PIX. -/
theorem pccStreams_eq (q : ModeParams) (sc : Scratch) :
    pccStreams q sc = { sc with pix := (pccStreams q sc).pix } := by
  unfold pccStreams
  split
  · rfl
  · split <;> rfl

section
variable (m : Mode) (f : BlockFields) (sc : Scratch)

theorem blockRun_eq_beforeCombiner :
    blockRun (.mode m f) sc = { beforeCombiner m f sc with pix := (blockRun (.mode m f) sc).pix } := by
  rw [blockRun_eq_pccStreams]
  exact pccStreams_eq _ _

theorem blockRun_cur_eq : (blockRun (.mode m f) sc).cur = 128 := by
  rw [blockRun_eq_beforeCombiner]
  simp only [beforeCombiner, eui_cur, ple_cur]
  split <;> simp only [mfxSecondary_cur, mfx_cur]

theorem blockRun_part : (blockRun (.mode m f) sc).part = BitVec.ofNat 6 f.part := by
  rw [blockRun_eq_beforeCombiner]
  simp only [beforeCombiner, eui_part, ple_part]
  split <;> simp only [mfxSecondary_part, mfx_part]

theorem blockRun_isel : (blockRun (.mode m f) sc).isel = BitVec.ofNat 1 f.isel := by
  rw [blockRun_eq_beforeCombiner]
  simp only [beforeCombiner, eui_isel, ple_isel]
  split <;> simp only [mfxSecondary_isel, mfx_isel]

theorem blockRun_raw {s : Fin 3} (hs : s.val < (Tables.modeParams m).ns) (e : Fin 2) :
    (blockRun (.mode m f) sc).raw[s][e] =
      rawEndpoint (modeHasAlpha (Tables.modeParams m)) f sc.raw[s][e] (2 * s.val + e.val) := by
  rw [blockRun_eq_beforeCombiner]
  simp only [beforeCombiner, eui_raw, ple_raw]
  split <;> simp only [mfxSecondary_raw, mfx_raw, if_pos hs]

theorem blockRun_pb {s : Fin 3} (hs : s.val < (Tables.modeParams m).ns) (e : Fin 2) :
    (blockRun (.mode m f) sc).pb[s][e] = pBit (modePBits (Tables.modeParams m)) f sc.pb[s][e] s.val e.val := by
  rw [blockRun_eq_beforeCombiner]
  simp only [beforeCombiner, eui_pb, ple_pb]
  split <;> simp only [mfxSecondary_pb, mfx_pb, if_pos hs]

theorem blockRun_idx (p : Fin 16) : (blockRun (.mode m f) sc).idx[p] = BitVec.ofNat 4 (f.idx.getD p.val 0) := by
  rw [blockRun_eq_beforeCombiner]
  simp only [beforeCombiner, eui_idx, ple_idx]
  split <;> simp only [mfxSecondary_idx, mfx_idx]

theorem blockRun_idx2 (h : (Tables.modeParams m).ib2 ≠ 0) (p : Fin 16) :
    (blockRun (.mode m f) sc).idx2[p] = BitVec.ofNat 3 (f.idx2.getD p.val 0) := by
  rw [blockRun_eq_beforeCombiner]
  simp only [beforeCombiner, eui_idx2, ple_idx2, if_neg h, mfxSecondary_idx2]

theorem blockRun_sub (p : Fin 16) : (blockRun (.mode m f) sc).sub[p] =
    BitVec.ofNat 2 (subsetOf (Tables.modeParams m).ns (BitVec.ofNat 6 f.part).toNat p.val) := by
  rw [blockRun_eq_beforeCombiner]
  simp only [beforeCombiner, eui_sub, ple_sub]
  split <;> simp only [mfxSecondary_part, mfx_part]

/-- The EUI unpacks EP from the RAW and PB that the MFX wrote (41_endpoint R110). -/
theorem blockRun_ep {s : Fin 3} (hs : s.val < (Tables.modeParams m).ns) (e : Fin 2) :
    (blockRun (.mode m f) sc).ep[s][e] = unpackEndpoint (modeHasP (Tables.modeParams m))
      (precision (Tables.modeParams m) (Tables.modeParams m).cb) (alphaPrecision (Tables.modeParams m))
      (blockRun (.mode m f) sc).raw[s][e] (blockRun (.mode m f) sc).pb[s][e] := by
  rw [blockRun_eq_beforeCombiner]
  simp only [beforeCombiner, eui_ep, eui_raw, eui_pb, if_pos hs]

end

/-! The same for well-formed fields, as the numbers of the rules. -/

/-- The weights of a mode's pixel for colour and for alpha: one stream drives both, or the primary colour and the
secondary alpha, swapped where the mode has a selector and it is 1 (43_color R150, R152). -/
def streamWeights (q : ModeParams) (f : BlockFields) (p : Nat) : Nat × Nat :=
  let primary := weight q.ib (f.idx.getD p 0)
  let secondary := weight q.ib2 (f.idx2.getD p 0)
  if q.ib2 = 0 then (primary, primary)
  else if q.isb = 0 then (primary, secondary)
  else (if f.isel = 0 then primary else secondary, if f.isel = 0 then secondary else primary)

/-- Endpoint number `k` of a channel, expanded from `n` bits with the p-bits the mode has (41_endpoint R111, R112). -/
def channelEp (q : ModeParams) (n : Nat) (f : BlockFields) (channel : List Nat) : Nat → Nat :=
  match modePBits q with
  | .none => plainEp n channel
  | .unique => uniqueEp n f channel
  | .shared => sharedEp n f channel

/-- Endpoint number `k` of a colour channel. -/
def colourEp (q : ModeParams) (f : BlockFields) (channel : List Nat) : Nat → Nat :=
  channelEp q (precision q q.cb) f channel

/-- Endpoint number `k` of alpha: 255 for a mode without alpha endpoints (41_endpoint R112). -/
def alphaEp (q : ModeParams) (f : BlockFields) : Nat → Nat :=
  match alphaPrecision q with
  | some n => channelEp q n f f.alpha
  | none => fun _ => 255

theorem modeParams_ns (m : Mode) :
    (Tables.modeParams m).ns = 1 ∨ (Tables.modeParams m).ns = 2 ∨ (Tables.modeParams m).ns = 3 := by
  cases m <;> decide

section
variable {m : Mode} {f : BlockFields} (h : f.wf m = true) (sc : Scratch)
include h

theorem blockRun_extractorWrites : ExtractorWrites m (Tables.modeParams m).ns f (blockRun (.mode m f) sc) := by
  have fit := fit_of_wf h
  refine ⟨blockRun_mode m f sc, blockRun_cur_eq m f sc, ?_, ?_, ?_, fun s e hs => ?_, fun p => ?_⟩
  · rw [blockRun_part, fit.part]
  · rw [blockRun_rot, fit.rot]
  · rw [blockRun_isel, fit.isel]
  · rw [blockRun_raw m f sc hs]
    exact ⟨fit.red _, fit.green _, fit.blue _⟩
  · rw [blockRun_idx, fit.idx]

theorem blockRun_alphaWrites (ha : modeHasAlpha (Tables.modeParams m) = true) :
    AlphaWrites (Tables.modeParams m).ns f (blockRun (.mode m f) sc) := by
  intro s e hs
  rw [blockRun_raw m f sc hs, rawEndpoint, if_pos ha]
  exact (fit_of_wf h).alpha _

theorem blockRun_uniquePWrites (hk : modePBits (Tables.modeParams m) = .unique) :
    UniquePWrites (Tables.modeParams m).ns f (blockRun (.mode m f) sc) := by
  intro s e hs
  rw [blockRun_pb m f sc hs, hk]
  exact (fit_of_wf h).uniqueP _

theorem blockRun_sharedPWrites (hk : modePBits (Tables.modeParams m) = .shared) :
    SharedPWrites (Tables.modeParams m).ns f (blockRun (.mode m f) sc) := by
  intro s e hs
  rw [blockRun_pb m f sc hs, hk]
  exact (fit_of_wf h).sharedP _

theorem blockRun_secondaryWrites (h2 : (Tables.modeParams m).ib2 ≠ 0) :
    SecondaryWrites f (blockRun (.mode m f) sc) := by
  intro p
  rw [blockRun_idx2 m f sc h2, (fit_of_wf h).idx2]

theorem blockRun_subsetsAre :
    SubsetsAre (subsetOf (Tables.modeParams m).ns f.part) (blockRun (.mode m f) sc) := by
  intro p
  have hlt := subsetOf_lt _ f.part p.val (modeParams_ns m) p.isLt
  have hns := modeParams_ns m
  rw [blockRun_sub, (fit_of_wf h).part, BitVec.toNat_ofNat, Nat.mod_eq_of_lt (by omega)]

/-- A channel written raw with its p-bit is expanded to its endpoint number `2*s + e` (41_endpoint R111, R112). -/
theorem toNat_unpackChannel_raw (n : Nat) {channel : List Nat} {raw : Byte} {s : Fin 3} {e : Fin 2}
    (hs : s.val < (Tables.modeParams m).ns) (hraw : raw.toNat = channel.getD (2 * s.val + e.val) 0) :
    (unpackChannel (modeHasP (Tables.modeParams m)) n raw (blockRun (.mode m f) sc).pb[s][e]).toNat =
      channelEp (Tables.modeParams m) n f channel (2 * s.val + e.val) := by
  have hhalf : (2 * s.val + e.val) / 2 = s.val := by omega
  rw [toNat_unpackChannel, hraw, channelEp, modeHasP]
  cases hk : modePBits (Tables.modeParams m) with
  | none => rfl
  | unique =>
    rw [blockRun_uniquePWrites h sc hk s e hs]
    rfl
  | shared =>
    rw [blockRun_sharedPWrites h sc hk s e hs]
    dsimp only
    rw [sharedEp, hhalf]
    rfl

theorem blockRun_endpointsAre : EndpointsAre (Tables.modeParams m).ns
    (colourEp (Tables.modeParams m) f f.red) (colourEp (Tables.modeParams m) f f.green)
    (colourEp (Tables.modeParams m) f f.blue) (alphaEp (Tables.modeParams m) f) (blockRun (.mode m f) sc) := by
  intro s e hs
  obtain ⟨-, -, -, -, -, hcolour, -⟩ := blockRun_extractorWrites h sc
  obtain ⟨hred, hgreen, hblue⟩ := hcolour s e hs
  rw [blockRun_ep m f sc hs]
  refine ⟨toNat_unpackChannel_raw h sc _ hs hred, toNat_unpackChannel_raw h sc _ hs hgreen,
    toNat_unpackChannel_raw h sc _ hs hblue, ?_⟩
  cases ha : modeHasAlpha (Tables.modeParams m) with
  | true =>
    simp only [unpackEndpoint, alphaEp, alphaPrecision, ha, if_true]
    exact toNat_unpackChannel_raw h sc _ hs (blockRun_alphaWrites h sc ha s e hs)
  | false => simp [unpackEndpoint, alphaEp, alphaPrecision, ha]

end

/-! The pixels. -/

theorem pixelIs_blend {e0 e1 : Rgba} {r0 g0 b0 a0 r1 g1 b1 a1 cw aw : Nat} (h0 : PixelIs e0 r0 g0 b0 a0)
    (h1 : PixelIs e1 r1 g1 b1 a1) (hc : cw ≤ 64) (ha : aw ≤ 64) :
    PixelIs (blend e0 e1 cw aw) (interp r0 r1 cw) (interp g0 g1 cw) (interp b0 b1 cw) (interp a0 a1 aw) := by
  obtain ⟨rfl, rfl, rfl, rfl⟩ := h0
  obtain ⟨rfl, rfl, rfl, rfl⟩ := h1
  exact ⟨toNat_interpByte _ _ _ hc, toNat_interpByte _ _ _ hc, toNat_interpByte _ _ _ hc, toNat_interpByte _ _ _ ha⟩

/-- ROT 1, 2, 3 swap alpha with R, G, B (43_color R153). -/
theorem rotatedPixelIs_rotate {q : Rgba} {r g b a : Nat} (h : PixelIs q r g b a) (rot : Nat) :
    RotatedPixelIs rot (rotate rot q) r g b a := by
  obtain ⟨hr, hg, hb, ha⟩ := h
  refine ⟨?_, ?_, ?_, ?_⟩ <;> rintro rfl
  · exact ⟨hr, hg, hb, ha⟩
  · exact ⟨ha, hg, hb, hr⟩
  · exact ⟨hr, ha, hb, hg⟩
  · exact ⟨hr, hg, ha, hb⟩

/-- A pixel is blended from its subset's endpoints, channel by channel, and rotated (43_color R151, R153). -/
theorem rotatedPixelIs_combine {sc : Scratch} {ns : Nat} {r g b a : Nat → Nat} (hep : EndpointsAre ns r g b a sc)
    {p : Fin 16} (s : Fin 3) (hs : s.val < ns) (hsub : sc.sub[p].toNat = s.val) {cw aw : Nat} (hc : cw ≤ 64)
    (ha : aw ≤ 64) :
    RotatedPixelIs sc.rot.toNat (combine sc p cw aw) (lerp r s.val cw) (lerp g s.val cw) (lerp b s.val cw)
      (lerp a s.val aw) := by
  rw [combine_eq sc p cw aw s hsub]
  exact rotatedPixelIs_rotate (pixelIs_blend (hep s 0 hs) (hep s 1 hs) hc ha) _

theorem streamWeights_le (q : ModeParams) (f : BlockFields) (p : Nat) :
    (streamWeights q f p).1 ≤ 64 ∧ (streamWeights q f p).2 ≤ 64 := by
  unfold streamWeights
  dsimp only
  split
  · exact ⟨weight_le _ _, weight_le _ _⟩
  · split
    · exact ⟨weight_le _ _, weight_le _ _⟩
    · split <;> exact ⟨weight_le _ _, weight_le _ _⟩

/-- The PCC combines every pixel with the weights of the mode's streams, where the index registers hold the block's
fields (43_color R150 to R152). -/
theorem pccStreams_pix {q : ModeParams} {f : BlockFields} {sc : Scratch} {p : Fin 16}
    (hisel : (pccStreams q sc).isel.toNat = f.isel) (hidx : (pccStreams q sc).idx[p].toNat = f.idx.getD p.val 0)
    (hidx2 : q.ib2 ≠ 0 → (pccStreams q sc).idx2[p].toNat = f.idx2.getD p.val 0) :
    (pccStreams q sc).pix[p] =
      combine (pccStreams q sc) p (streamWeights q f p.val).1 (streamWeights q f p.val).2 := by
  have hcombine : ∀ cw aw, combine (pccStreams q sc) p cw aw = combine sc p cw aw := fun cw aw => by
    rw [pccStreams_eq]
    rfl
  rw [pccStreams_eq] at hisel hidx hidx2
  dsimp only at hisel hidx hidx2
  have hsel : sc.isel = 0 ↔ f.isel = 0 := by rw [← hisel]; exact BitVec.toNat_inj.symm
  rw [hcombine, pccStreams, streamWeights]
  by_cases h2 : q.ib2 = 0
  · simp only [if_pos h2, pcc_pix, primaryWeight, hidx]
  · by_cases hsb : q.isb = 0
    · simp only [if_neg h2, hsb, true_or, if_true, pcc_pix, primaryWeight, secondaryWeight, hidx, hidx2 h2]
    · by_cases hi : f.isel = 0 <;>
        simp only [if_neg h2, hsel, hsb, hi, false_or, if_true, if_false, pcc_pix, primaryWeight, secondaryWeight, hidx,
          hidx2 h2]

/-- Interpolating between equal values gives that value (41_endpoint R115). -/
theorem interp_self (v : Nat) {w : Nat} (hw : w ≤ 64) : interp v v w = v := by
  have hsum : (64 - w) * v + w * v = 64 * v := by rw [← Nat.add_mul, Nat.sub_add_cancel hw]
  rw [interp, hsum, Nat.shiftRight_eq_div_pow]
  omega

section
variable {m : Mode} {f : BlockFields} (h : f.wf m = true) (sc : Scratch) (p : Fin 16)
include h

/-- Every pixel of a block, in every mode: its subset's endpoints, the weights of its indices, the rotation. -/
theorem blockRun_rotatedPixelIs :
    let q := Tables.modeParams m
    let sub := subsetOf q.ns f.part p.val
    let w := streamWeights q f p.val
    RotatedPixelIs f.rot (blockRun (.mode m f) sc).pix[p] (lerp (colourEp q f f.red) sub w.1)
      (lerp (colourEp q f f.green) sub w.1) (lerp (colourEp q f f.blue) sub w.1) (lerp (alphaEp q f) sub w.2) := by
  intro q sub w
  obtain ⟨-, -, -, hrot, hisel, -, hidx⟩ := blockRun_extractorWrites h sc
  have hlt : sub < (Tables.modeParams m).ns := subsetOf_lt _ f.part p.val (modeParams_ns m) p.isLt
  have hns := modeParams_ns m
  obtain ⟨hc, ha⟩ := streamWeights_le q f p.val
  have hpix : (blockRun (.mode m f) sc).pix[p] = combine (blockRun (.mode m f) sc) p w.1 w.2 := by
    rw [blockRun_eq_pccStreams] at hisel hidx ⊢
    refine pccStreams_pix hisel (hidx p) fun h2 => ?_
    rw [← blockRun_eq_pccStreams]
    exact blockRun_secondaryWrites h sc h2 p
  rw [hpix, ← hrot]
  exact rotatedPixelIs_combine (blockRun_endpointsAre h sc) ⟨sub, by omega⟩ hlt (blockRun_subsetsAre h sc p) hc ha

/-- A mode without a rotation field rotates nothing (30_encoding R72). -/
theorem blockRun_pixelIs (hrb : (Tables.modeParams m).rb = 0) :
    let q := Tables.modeParams m
    let sub := subsetOf q.ns f.part p.val
    let w := streamWeights q f p.val
    PixelIs (blockRun (.mode m f) sc).pix[p] (lerp (colourEp q f f.red) sub w.1)
      (lerp (colourEp q f f.green) sub w.1) (lerp (colourEp q f f.blue) sub w.1) (lerp (alphaEp q f) sub w.2) := by
  obtain ⟨-, hrot, -⟩ := (wf_iff m f).1 h
  rw [hrb] at hrot
  obtain ⟨hplain, -⟩ := blockRun_rotatedPixelIs h sc p
  exact hplain (by omega)

/-- A mode without alpha endpoints gives alpha 255: both its alpha endpoints are 255 (41_endpoint R112). -/
theorem blockRun_opaquePixelIs (hrb : (Tables.modeParams m).rb = 0)
    (ha : modeHasAlpha (Tables.modeParams m) = false) :
    let q := Tables.modeParams m
    let sub := subsetOf q.ns f.part p.val
    let w := streamWeights q f p.val
    PixelIs (blockRun (.mode m f) sc).pix[p] (lerp (colourEp q f f.red) sub w.1)
      (lerp (colourEp q f f.green) sub w.1) (lerp (colourEp q f f.blue) sub w.1) 255 := by
  obtain ⟨hr, hg, hb, halpha⟩ := blockRun_pixelIs h sc p hrb
  obtain ⟨-, hle⟩ := streamWeights_le (Tables.modeParams m) f p.val
  refine ⟨hr, hg, hb, halpha.trans ?_⟩
  rw [alphaEp, alphaPrecision, ha]
  exact interp_self 255 hle

end

/-! Endpoints of 8 bits, which the expansion leaves as they are (41_endpoint R112). -/

theorem endpointsAre_congr {ns : Nat} {r g b a r' g' b' a' : Nat → Nat} {sc : Scratch}
    (h : EndpointsAre ns r g b a sc) (hr : r = r') (hg : g = g') (hb : b = b') (ha : a = a') :
    EndpointsAre ns r' g' b' a' sc := hr ▸ hg ▸ hb ▸ ha ▸ h

/-- A value with room for at most `n` bits in each of its widths is below `2 ^ n`. -/
theorem getD_lt_two_pow {ws vs : List Nat} (hfits : fitsAll ws vs = true) {n : Nat} (hws : ∀ w ∈ ws, w ≤ n)
    (k : Nat) : vs.getD k 0 < 2 ^ n :=
  (getD_lt_of_fitsAll hfits k).trans_le (Nat.pow_le_pow_right (by norm_num) (getD_le_of_forall hws k))

theorem plainEp_eight {ws channel : List Nat} (hfits : fitsAll ws channel = true) (hws : ∀ w ∈ ws, w ≤ 8) :
    plainEp 8 channel = fun k => channel.getD k 0 :=
  funext fun k => expand_eight _ (getD_lt_two_pow hfits hws k)

/-- A value of 7 bits with its p-bit below it has 8 bits (41_endpoint R111). -/
theorem uniqueEp_eight {m : Mode} {f : BlockFields} (h : f.wf m = true) {ws channel : List Nat}
    (hfits : fitsAll ws channel = true) (hws : ∀ w ∈ ws, w ≤ 7) :
    uniqueEp 8 f channel = fun k => channel.getD k 0 * 2 + f.uniqueP.getD k 0 := by
  obtain ⟨-, -, -, -, -, -, -, hp, -⟩ := (wf_iff m f).1 h
  funext k
  have hchannel := getD_lt_two_pow hfits hws k
  have hpbit := getD_lt_two_pow hp (n := 1) (fun _ hw => (List.eq_of_mem_replicate hw).le) k
  exact expand_eight _ (by omega)

/-! exec of a block format. -/

theorem onlyScratchChanges_withBdu (s : State) (run : Scratch → Scratch) : OnlyScratchChanges s (s.withBdu run) :=
  ⟨rfl, fun _ => rfl, rfl, rfl, rfl, rfl, rfl⟩

/-- A block format completes and changes only scratch registers, and what the BDU leaves there from any scratch is left
in the next state (40_mode R102). -/
theorem exec_instr_result (b : Block) (s : State) (Left : Scratch → Prop) (hleft : ∀ sc, Left (blockRun b sc)) :
    ∃ t, exec b.instr s = .next t ∧ OnlyScratchChanges s t ∧ Left t.scratch :=
  ⟨_, exec_instr b s, onlyScratchChanges_withBdu s _, hleft _⟩

end Sys2Proof.Machine

namespace Sys2Proof.Proofs.ModeExtractorFamily
open Sys2Proof.Machine Sys2Proof.Claims

/-- Settles O2: mode detection finds the mode whose bit is set over clear ones, or no mode where bits 0..7 are clear. -/
theorem modeIsTheLowestSetBit : Obligations.ModeIsTheLowestSetBit := by
  intro blk sc
  rw [blockRun_decodeBlk_mode, ← modeDetect_eq_none_iff]
  refine ⟨?_, fun m => ?_⟩
  · cases modeDetect blk <;> simp
  · rw [← modeDetect_eq_some_iff]
    cases modeDetect blk <;> simp

/-- Settles O14: three subsets, unique p-bits, no alpha endpoints, one stream. As in every result below, the numbers of
the rule are those of the mode's row. -/
theorem decodeM0Result : Obligations.DecodeM0Result := fun f s h =>
  exec_instr_result (.mode .m0 f) s (M0Writes f) fun sc =>
    ⟨blockRun_extractorWrites h sc, blockRun_uniquePWrites h sc rfl, blockRun_subsetsAre h sc,
      blockRun_endpointsAre h sc, fun p => blockRun_opaquePixelIs h sc p rfl rfl⟩

/-- Settles O15: two subsets, shared p-bits, no alpha endpoints, one stream. -/
theorem decodeM1Result : Obligations.DecodeM1Result := fun f s h =>
  exec_instr_result (.mode .m1 f) s (M1Writes f) fun sc =>
    ⟨blockRun_extractorWrites h sc, blockRun_sharedPWrites h sc rfl, blockRun_subsetsAre h sc,
      blockRun_endpointsAre h sc, fun p => blockRun_opaquePixelIs h sc p rfl rfl⟩

/-- Settles O16: three subsets, no p-bit, no alpha endpoints, one stream. -/
theorem decodeM2Result : Obligations.DecodeM2Result := fun f s h =>
  exec_instr_result (.mode .m2 f) s (M2Writes f) fun sc =>
    ⟨blockRun_extractorWrites h sc, blockRun_subsetsAre h sc, blockRun_endpointsAre h sc,
      fun p => blockRun_opaquePixelIs h sc p rfl rfl⟩

/-- Settles O17: the 8-bit endpoints are their own expansion. -/
theorem decodeM3Result : Obligations.DecodeM3Result := fun f s h => by
  obtain ⟨-, -, -, hred, hgreen, hblue, -⟩ := (wf_iff .m3 f).1 h
  exact exec_instr_result (.mode .m3 f) s (M3Writes f) fun sc =>
    ⟨blockRun_extractorWrites h sc, blockRun_uniquePWrites h sc rfl, blockRun_subsetsAre h sc,
      endpointsAre_congr (blockRun_endpointsAre h sc) (uniqueEp_eight h hred (by decide))
        (uniqueEp_eight h hgreen (by decide)) (uniqueEp_eight h hblue (by decide)) rfl,
      fun p => blockRun_opaquePixelIs h sc p rfl rfl⟩

/-- Settles O18: one subset, two streams that the selector assigns, rotation. -/
theorem decodeM4Result : Obligations.DecodeM4Result := fun f s h =>
  exec_instr_result (.mode .m4 f) s (M4Writes f) fun sc =>
    ⟨blockRun_extractorWrites h sc, blockRun_alphaWrites h sc rfl, blockRun_secondaryWrites h sc (by decide),
      blockRun_subsetsAre h sc, blockRun_endpointsAre h sc, blockRun_rotatedPixelIs h sc⟩

/-- Settles O19: one subset, two streams, rotation; the 8-bit alpha endpoints are their own expansion. -/
theorem decodeM5Result : Obligations.DecodeM5Result := fun f s h => by
  obtain ⟨-, -, -, -, -, -, halpha, -⟩ := (wf_iff .m5 f).1 h
  have hidentity := plainEp_eight halpha (by decide)
  refine exec_instr_result (.mode .m5 f) s (M5Writes f) fun sc =>
    ⟨blockRun_extractorWrites h sc, blockRun_alphaWrites h sc rfl, blockRun_secondaryWrites h sc (by decide),
      blockRun_subsetsAre h sc, endpointsAre_congr (blockRun_endpointsAre h sc) rfl rfl rfl hidentity, fun p => ?_⟩
  have hpixel := blockRun_rotatedPixelIs h sc p
  rw [← hidentity]
  exact hpixel

/-- Settles O20: the 8-bit endpoints are their own expansion, alpha's among them. -/
theorem decodeM6Result : Obligations.DecodeM6Result := fun f s h => by
  obtain ⟨-, -, -, hred, hgreen, hblue, halpha, -⟩ := (wf_iff .m6 f).1 h
  exact exec_instr_result (.mode .m6 f) s (M6Writes f) fun sc =>
    ⟨blockRun_extractorWrites h sc, blockRun_alphaWrites h sc rfl, blockRun_uniquePWrites h sc rfl,
      blockRun_subsetsAre h sc,
      endpointsAre_congr (blockRun_endpointsAre h sc) (uniqueEp_eight h hred (by decide))
        (uniqueEp_eight h hgreen (by decide)) (uniqueEp_eight h hblue (by decide))
        (uniqueEp_eight h halpha (by decide)),
      fun p => blockRun_pixelIs h sc p rfl⟩

/-- Settles O21: two subsets, unique p-bits on alpha too, one stream. -/
theorem decodeM7Result : Obligations.DecodeM7Result := fun f s h =>
  exec_instr_result (.mode .m7 f) s (M7Writes f) fun sc =>
    ⟨blockRun_extractorWrites h sc, blockRun_alphaWrites h sc rfl, blockRun_uniquePWrites h sc rfl,
      blockRun_subsetsAre h sc, blockRun_endpointsAre h sc, fun p => blockRun_pixelIs h sc p rfl⟩

/-- Settles O23: every register the PCC reads was written by the chain before it, from the block alone. -/
theorem pixelsDependOnTheBlockAlone : Obligations.PixelsDependOnTheBlockAlone := blockRun_pix_congr

/-- Settles O22: the BDU writes MODE and PIX only, and no mode is found where byte 0 is 0. -/
theorem decodeInvResult : Obligations.DecodeInvResult := by
  refine ⟨fun s => ?_, fun blk hblk => ?_⟩
  · refine exec_instr_result .modeless s (fun sc => sc.mode = .invalid ∧ ∀ p : Fin 16, PixelIs sc.pix[p] 0 0 0 0)
      fun sc => ⟨rfl, fun p => ?_⟩
    have hzero : (blockRun .modeless sc).pix[p] = Rgba.zero := by simp [blockRun, runInv]
    rw [hzero]
    exact ⟨rfl, rfl, rfl, rfl⟩
  · rw [decodeBlk_of_modeDetect_none (modeDetect_none.2 hblk)]
    rfl

/-- Settles O31: the host's action is the instruction itself, and for a DECODE_BLOCK the BDU on the block its bytes
decode to, then its pixels. -/
theorem stepRunsTheDecodedInstruction : Obligations.StepRunsTheDecodedInstruction := by
  refine ⟨fun s u bs rest i hq hturn hdec hexec => ?_, fun s u c rest hq hturn hexec => ?_⟩
  · obtain ⟨hlen, rfl⟩ := decode_eq_ok hdec
    obtain rfl := Host.Outcome.next.inj ((exec_instr _ _).symm.trans hexec)
    rw [step_host ⟨hq, nofun, hturn⟩, hostAct, exec_decodeBlock hlen, andThen_next]
  · rw [step_host ⟨hq, nofun, hturn⟩, hostAct, hexec, andThen_next]

end Sys2Proof.Proofs.ModeExtractorFamily
end

section
/-! PROOFS (family 41_endpoint_interp.md). Endpoint expansion as the value with its top bits below it, the weight tables,
and the rounded interpolation between two endpoints. -/

namespace Sys2Proof.Machine

/-! Expansion to 8 bits (41_endpoint R112, R118). -/

/-- The top bits of `u` that the expansion repeats fit below the shifted `u`. -/
theorem shiftRight_lt_of_expansion {u n : Nat} (h4 : 4 ≤ n) (h8 : n ≤ 8) (hu : u < 2 ^ n) :
    u >>> (2 * n - 8) < 2 ^ (8 - n) := by
  have hsplit : 2 ^ n = 2 ^ (8 - n) * 2 ^ (2 * n - 8) := by rw [← Nat.pow_add]; congr 1; omega
  rw [Nat.shiftRight_eq_div_pow]
  exact Nat.div_lt_of_lt_mul (by rwa [Nat.mul_comm, ← hsplit])

/-- The two parts of an expansion do not overlap, so the union of bits is a sum, and the sum fits 8 bits. -/
theorem expand_eq_add {u n : Nat} (h4 : 4 ≤ n) (h8 : n ≤ 8) (hu : u < 2 ^ n) :
    expand u n = 2 ^ (8 - n) * u + u >>> (2 * n - 8) := by
  have hlow := shiftRight_lt_of_expansion h4 h8 hu
  have hfits : 2 ^ (8 - n) * u + u >>> (2 * n - 8) < 2 ^ 8 :=
    calc 2 ^ (8 - n) * u + u >>> (2 * n - 8) < 2 ^ (8 - n) * (u + 1) := by rw [Nat.mul_succ]; omega
      _ ≤ 2 ^ (8 - n) * 2 ^ n := Nat.mul_le_mul_left _ hu
      _ = 2 ^ 8 := by rw [← Nat.pow_add, Nat.sub_add_cancel h8]
  have hunion : u <<< (8 - n) ||| u >>> (2 * n - 8) = 2 ^ (8 - n) * u + u >>> (2 * n - 8) := by
    rw [← Nat.shiftLeft_add_eq_or_of_lt hlow, Nat.shiftLeft_eq, Nat.mul_comm]
  rw [expand, hunion]
  exact (Nat.and_two_pow_sub_one_eq_mod _ 8).trans (Nat.mod_eq_of_lt hfits)

/-- The top `n` bits of an expansion are the value expanded (41_endpoint R118). -/
theorem expand_div_two_pow {u n : Nat} (h4 : 4 ≤ n) (h8 : n ≤ 8) (hu : u < 2 ^ n) : expand u n / 2 ^ (8 - n) = u := by
  rw [expand_eq_add h4 h8 hu, Nat.mul_add_div (by positivity),
    Nat.div_eq_of_lt (shiftRight_lt_of_expansion h4 h8 hu), Nat.add_zero]

/-- An expansion gives its value back in its top bits, so it cannot fall or stay where the value rises. -/
theorem expand_lt_expand {u v n : Nat} (h4 : 4 ≤ n) (h8 : n ≤ 8) (huv : u < v) (hv : v < 2 ^ n) :
    expand u n < expand v n := by
  by_contra hle
  have htop := Nat.div_le_div_right (c := 2 ^ (8 - n)) (Nat.le_of_not_lt hle)
  rw [expand_div_two_pow h4 h8 hv, expand_div_two_pow h4 h8 (huv.trans hv)] at htop
  omega

@[simp] theorem expand_zero (n : Nat) : expand 0 n = 0 := by simp [expand]

/-- The largest value of a width expands to the largest channel value: the repeated bits fill the low end with ones. -/
theorem expand_two_pow_sub_one {n : Nat} (h5 : 5 ≤ n) (h8 : n ≤ 8) : expand (2 ^ n - 1) n = 255 := by
  interval_cases n <;> rfl

/-! The weights of the first and the last index (41_endpoint R113, R117). -/

theorem weight_first {b : Nat} (hb : b = 2 ∨ b = 3 ∨ b = 4) : weight b 0 = 0 := by
  rcases hb with rfl | rfl | rfl <;> rfl

theorem weight_last {b : Nat} (hb : b = 2 ∨ b = 3 ∨ b = 4) : weight b (2 ^ b - 1) = 64 := by
  rcases hb with rfl | rfl | rfl <;> rfl

/-! Interpolation (41_endpoint R114, R115, R117). -/

theorem interp_eq_div (e0 e1 w : Nat) : interp e0 e1 w = ((64 - w) * e0 + w * e1 + 32) / 64 :=
  Nat.shiftRight_eq_div_pow _ 6

/-- The two weights sum to 64, so a bound of both endpoints bounds the weighted sum. -/
theorem weightedSum_le {e0 e1 w b : Nat} (h0 : e0 ≤ b) (h1 : e1 ≤ b) (hw : w ≤ 64) :
    (64 - w) * e0 + w * e1 ≤ 64 * b :=
  calc (64 - w) * e0 + w * e1 ≤ (64 - w) * b + w * b :=
        Nat.add_le_add (Nat.mul_le_mul_left _ h0) (Nat.mul_le_mul_left _ h1)
    _ = 64 * b := by rw [← Nat.add_mul, Nat.sub_add_cancel hw]

theorem interp_mono {e0 e1 f0 f1 : Nat} (w : Nat) (h0 : e0 ≤ f0) (h1 : e1 ≤ f1) :
    interp e0 e1 w ≤ interp f0 f1 w := by
  rw [interp_eq_div, interp_eq_div]
  gcongr

theorem min_le_interp (e0 e1 : Nat) {w : Nat} (hw : w ≤ 64) : min e0 e1 ≤ interp e0 e1 w :=
  calc min e0 e1 = interp (min e0 e1) (min e0 e1) w := (interp_self _ hw).symm
    _ ≤ interp e0 e1 w := interp_mono w (Nat.min_le_left ..) (Nat.min_le_right ..)

@[simp] theorem interp_zero (e0 e1 : Nat) : interp e0 e1 0 = e0 := by
  rw [interp_eq_div]; omega

@[simp] theorem interp_sixtyFour (e0 e1 : Nat) : interp e0 e1 64 = e1 := by
  rw [interp_eq_div]; omega

/-- Exchanging the endpoints exchanges the weights. -/
theorem interp_symm (e0 e1 : Nat) {w : Nat} (hw : w ≤ 64) : interp e0 e1 w = interp e1 e0 (64 - w) := by
  rw [interp, interp, Nat.sub_sub_self hw, Nat.add_comm (w * e1)]

/-- Interpolation is the rounded value of the line from `e0` to `e1`, whichever endpoint is larger: the weighted sum is
`64 * e0 + w * (e1 - e0)` (41_endpoint R114). -/
theorem interp_eq_round (e0 e1 : Nat) {w : Nat} (hw : w ≤ 64) :
    (interp e0 e1 w : Int) = (64 * (e0 : Int) + (w : Int) * ((e1 : Int) - (e0 : Int)) + 32) / 64 := by
  have hline : (64 - w : Int) * e0 + w * e1 + 32 = 64 * e0 + w * ((e1 : Int) - e0) + 32 := by ring
  rw [interp_eq_div, ← hline]
  push_cast [Nat.cast_sub hw]
  rfl

end Sys2Proof.Machine

namespace Sys2Proof.Proofs.EndpointInterpFamily
open Sys2Proof.Machine

/-- Settles O13: monotone in both endpoints, the interpolation lies between its values at equal endpoints; the first and
the last index have the weights 0 and 64. -/
theorem interpolationLaws : Obligations.InterpolationLaws := by
  intro e0 e1 w h0 h1 hw
  refine ⟨min_le_interp e0 e1 hw, interp_le e0 e1 w _ (Nat.le_max_left ..) (Nat.le_max_right ..) hw, interp_self e0 hw,
    interp_zero e0 e1, interp_sixtyFour e0 e1, interp_symm e0 e1 hw, ?_, fun b hb => ?_⟩
  · exact Nat.add_le_add_right (weightedSum_le h0 h1 hw) 32
  · rw [weight_first hb, weight_last hb]
    exact ⟨interp_zero e0 e1, interp_sixtyFour e0 e1⟩

/-- Settles O10: an expansion is the shifted value plus its top bits, which do not reach the shifted part. -/
theorem expansionLaws : Obligations.ExpansionLaws := by
  intro n h5 h8
  have h4 : 4 ≤ n := by omega
  exact ⟨expand_zero n, expand_two_pow_sub_one h5 h8, expand_two_pow_sub_one (n := 6) (by decide) (by decide),
    fun u v huv hv => expand_lt_expand h4 h8 huv hv, fun u hu => expand_div_two_pow h4 h8 hu⟩

/-- Settles O11: the tables are constants, and each of their 28 entries is compared with its rounded fraction. -/
theorem weightsAreRoundedFractions : Obligations.WeightsAreRoundedFractions := by
  refine ⟨rfl, rfl, rfl, fun b hb => ?_⟩
  rcases hb with rfl | rfl | rfl <;> decide

/-- Settles O12: the formula is the definition's, the range is that of the endpoints, and the rounding is the line's. -/
theorem interpolationRoundsHalvesUp : Obligations.InterpolationRoundsHalvesUp := by
  intro e0 e1 w h0 h1 hw
  exact ⟨rfl, Nat.lt_succ_of_le (interp_le e0 e1 w 255 h0 h1 hw), interp_eq_round e0 e1 hw⟩

end Sys2Proof.Proofs.EndpointInterpFamily
end

section
/-! PROOFS (family 42_partition_lookup.md). The partition and anchor tables: a row is determined by its digits, and the
anchor of each subset is a pixel of that subset. -/

namespace Sys2Proof

/-! A row of a partition table and its digits (42_partition R132). -/

/-- Rows with the same digits agree in their last `n` digits, those of pixels `16 - n` to 15, taken as one number. -/
theorem mod_eq_mod_of_rowDigit_eq {a b : Nat} (h : ∀ p < 16, rowDigit a p = rowDigit b p) :
    ∀ n ≤ 16, a % 16 ^ n = b % 16 ^ n := by
  intro n hn
  induction n with
  | zero => rw [pow_zero, Nat.mod_one, Nat.mod_one]
  | succ n ih =>
    have hdigit : a / 16 ^ n % 16 = b / 16 ^ n % 16 := by
      have := h (15 - n) (by omega)
      rwa [rowDigit, rowDigit, Nat.sub_sub_self (by omega)] at this
    rw [Nat.mod_pow_succ, Nat.mod_pow_succ, ih (by omega), hdigit]

/-- A row of sixteen digits is determined by them. -/
theorem eq_of_rowDigit_eq {a b : Nat} (ha : a < 16 ^ 16) (hb : b < 16 ^ 16)
    (h : ∀ p < 16, rowDigit a p = rowDigit b p) : a = b := by
  have hmod := mod_eq_mod_of_rowDigit_eq h 16 le_rfl
  rwa [Nat.mod_eq_of_lt ha, Nat.mod_eq_of_lt hb] at hmod

/-- In a table of distinct rows of sixteen digits, the digits of a row determine its number. -/
theorem index_eq_of_rowDigit_eq {table : List Nat} (hdistinct : table.Nodup) (hrow : ∀ row ∈ table, row < 16 ^ 16)
    {i j : Nat} (hi : i < table.length) (hj : j < table.length)
    (h : ∀ p < 16, rowDigit (table.getD i 0) p = rowDigit (table.getD j 0) p) : i = j := by
  rw [List.getD_eq_getElem _ _ hi, List.getD_eq_getElem _ _ hj] at h
  exact hdistinct.getElem_inj_iff.mp
    (eq_of_rowDigit_eq (hrow _ (List.getElem_mem hi)) (hrow _ (List.getElem_mem hj)) h)

/-- No two of the 64 partitions of a table are equal (42_partition R137 item 4). -/
theorem part_eq_of_subsetOf_eq {ns part q : Nat} (hns : ns = 2 ∨ ns = 3) (hpart : part < 64) (hq : q < 64)
    (h : ∀ p < 16, subsetOf ns part p = subsetOf ns q p) : part = q := by
  rcases hns with rfl | rfl
  · exact index_eq_of_rowDigit_eq (table := Tables.partition2) (by decide) (by decide) hpart hq h
  · exact index_eq_of_rowDigit_eq (table := Tables.partition3) (by decide) (by decide) hpart hq h

/-! The anchors (42_partition R134). -/

theorem length_anchors {ns : Nat} (hns : ns = 2 ∨ ns = 3) (part : Nat) : (anchors ns part).length = ns := by
  rcases hns with rfl | rfl <;> rfl

/-- Subset 0's anchor is pixel 0. -/
theorem anchors_getD_zero {ns : Nat} (hns : ns = 2 ∨ ns = 3) (part : Nat) : (anchors ns part).getD 0 0 = 0 := by
  rcases hns with rfl | rfl <;> rfl

/-- The anchor of subset `s` is a pixel of the block, in subset `s` (42_partition R137 items 1 and 3). -/
theorem subsetOf_anchor {ns part s : Nat} (hns : ns = 2 ∨ ns = 3) (hpart : part < 64) (hs : s < ns) :
    (anchors ns part).getD s 0 < 16 ∧ subsetOf ns part ((anchors ns part).getD s 0) = s := by
  have h2 : ∀ part < 64, ∀ s < 2, (anchors 2 part).getD s 0 < 16 ∧ subsetOf 2 part ((anchors 2 part).getD s 0) = s := by
    decide
  have h3 : ∀ part < 64, ∀ s < 3, (anchors 3 part).getD s 0 < 16 ∧ subsetOf 3 part ((anchors 3 part).getD s 0) = s := by
    decide
  rcases hns with rfl | rfl
  · exact h2 part hpart s hs
  · exact h3 part hpart s hs

end Sys2Proof

namespace Sys2Proof.Proofs.PartitionLookupFamily
open Sys2Proof.Machine

/-- Settles O9: each subset has its anchor as a pixel, pixel 0 is subset 0's, and rows with the same digits are the same
number, which stands once in its table. -/
theorem partitionTablesAreConsistent : Obligations.PartitionTablesAreConsistent := by
  intro ns hns part hpart
  have hanchor : ∀ s < ns, (anchors ns part).getD s 0 < 16 ∧ subsetOf ns part ((anchors ns part).getD s 0) = s :=
    fun s hs => subsetOf_anchor hns hpart hs
  have hpixel0 : subsetOf ns part 0 = 0 := by
    have := (hanchor 0 (by omega)).2
    rwa [anchors_getD_zero hns] at this
  exact ⟨hpixel0, fun p hp => subsetOf_lt ns part p (.inr hns) hp, fun s hs => ⟨_, hanchor s hs⟩,
    length_anchors hns part, fun s hs => (hanchor s hs).2, fun q hq h => part_eq_of_subsetOf_eq hns hpart hq h⟩

end Sys2Proof.Proofs.PartitionLookupFamily
end

section
/-! PROOFS (family 43_color_combiner.md). The combiner on equal endpoints: the indices have no say, so a pixel is its
subset's endpoint after the rotation, and only modes 4 and 5 have a rotation. -/

namespace Sys2Proof.Machine

@[simp] theorem rotate_zero (q : Rgba) : rotate 0 q = q := rfl

/-- A pixel whose subset has equal endpoints is that endpoint, rotated, whatever the two weights (43_color R157). -/
theorem combine_of_ep_eq {sc : Scratch} {p : Fin 16} {s : Fin 3} (hsub : sc.sub[p].toNat = s.val)
    (hep : sc.ep[s][(0 : Fin 2)] = sc.ep[s][(1 : Fin 2)]) {cw aw : Nat} (hc : cw ≤ 64) (ha : aw ≤ 64) :
    combine sc p cw aw = rotate sc.rot.toNat sc.ep[s][(0 : Fin 2)] := by
  rw [combine_eq sc p cw aw s hsub, ← hep, blend_same _ hc ha]

/-- A rotation field of no bits is 0 (30_encoding R72). -/
theorem rot_eq_zero_of_wf {m : Mode} {f : BlockFields} (h : f.wf m = true) (hrb : (Tables.modeParams m).rb = 0) :
    f.rot = 0 := by
  obtain ⟨-, hrot, -⟩ := (wf_iff m f).1 h
  rw [hrb] at hrot
  omega

/-- Only modes 4 and 5 have a rotation field (30_encoding R61). -/
theorem modeParams_rb_eq_zero {m : Mode} (h4 : m ≠ .m4) (h5 : m ≠ .m5) : (Tables.modeParams m).rb = 0 := by
  cases m with
  | m4 => exact absurd rfl h4
  | m5 => exact absurd rfl h5
  | m0 | m1 | m2 | m3 | m6 | m7 => rfl

section
variable {m : Mode} {f : BlockFields} (h : f.wf m = true) (sc : Scratch) {p : Fin 16}
include h

theorem blockRun_pix_of_ep_eq {s : Fin 3} (hsub : (blockRun (.mode m f) sc).sub[p].toNat = s.val)
    (hep : (blockRun (.mode m f) sc).ep[s][(0 : Fin 2)] = (blockRun (.mode m f) sc).ep[s][(1 : Fin 2)]) :
    (blockRun (.mode m f) sc).pix[p] = rotate f.rot (blockRun (.mode m f) sc).ep[s][(0 : Fin 2)] := by
  obtain ⟨cw, aw, hc, ha, hpix⟩ := blockRun_pixel m f sc p
  rw [hpix, combine_of_ep_eq hsub hep hc ha, blockRun_rot, (fit_of_wf h).rot]

/-- Modes 0 to 3 have neither a rotation nor alpha endpoints, so their pixels are opaque (43_color R157). -/
theorem blockRun_pix_opaque (hm : m = .m0 ∨ m = .m1 ∨ m = .m2 ∨ m = .m3) :
    (blockRun (.mode m f) sc).pix[p].a.toNat = 255 := by
  have hparams : (Tables.modeParams m).rb = 0 ∧ modeHasAlpha (Tables.modeParams m) = false := by
    rcases hm with rfl | rfl | rfl | rfl <;> decide
  obtain ⟨hrb, halpha⟩ := hparams
  obtain ⟨-, -, -, ha⟩ := blockRun_opaquePixelIs h sc p hrb halpha
  exact ha

end

end Sys2Proof.Machine

namespace Sys2Proof.Proofs.ColorCombinerFamily
open Sys2Proof.Machine

/-- Settles O24: every pixel is combined with weights of at most 64, between which equal endpoints do not move; the
rotation is read off the block's own field, which six of the modes lack. -/
theorem equalEndpointsGiveAConstantSubset : Obligations.EqualEndpointsGiveAConstantSubset := by
  intro m f sc p h t s hsub hep
  have hpix : t.pix[p] = rotate f.rot t.ep[s][(0 : Fin 2)] := blockRun_pix_of_ep_eq h sc hsub hep
  refine ⟨hpix, fun ⟨h4, h5⟩ => rot_eq_zero_of_wf h (modeParams_rb_eq_zero h4 h5), fun hrot => ?_,
    blockRun_pix_opaque h sc⟩
  rw [hpix, hrot, rotate_zero]

end Sys2Proof.Proofs.ColorCombinerFamily
end

section
/-! PROOFS (family 44_gather_scatter.md). The host transactions, the moves of the GSU, and the one end of a transaction
that the host waits for. -/

namespace Sys2Proof.Machine
open Memory Sys2Proof.Claims

/-! DECODE_BLOCK (44_gather R170). -/

theorem leNat_mod_256 (bs : List Byte) : leNat bs % 256 = (bs.getD 0 0).toNat := by
  cases bs with
  | nil => rfl
  | cons b bs =>
    have hb := b.isLt
    simp only [leNat, List.getD_cons_zero]
    omega

/-- A block whose byte 0 is 0 has no mode, and its pixels are (0,0,0,0) (40_mode R106). -/
theorem decodeBlockPixels_of_byte_zero {bs : List Byte} (h : bs.getD 0 0 = 0) :
    decodeBlockPixels (leNat bs) = Vector.replicate 16 Rgba.zero := by
  have hmode : modeDetect (leNat bs) = none := modeDetect_none.2 (by rw [leNat_mod_256, h]; rfl)
  rw [decodeBlockPixels, decodeBlk_of_modeDetect_none hmode]
  rfl

/-! The issue of a DECODE_TEXTURE (44_gather R171 to R174). -/

theorem dimsFit_iff (c : TextureCmd) : c.dimsFit = true ↔ c.width < 2 ^ 32 ∧ c.height < 2 ^ 32 := by
  simp only [TextureCmd.dimsFit, Bool.and_eq_true, decide_eq_true_eq]
  rfl

/-- The issue step with a length error (44_gather R173). -/
theorem issue_gsu_of_lengthError {c : TextureCmd} {e : Status} (he : lengthError c = some e) (s : State) :
    (s.issue c).gsu = ⟨.idle, none, [], e, []⟩ := by
  rw [State.issue_gsu, he]

/-- The order of the length checks (44_gather R173, 60_exceptions R196). -/
theorem lengthError_of_inLen_lt {c : TextureCmd} (h : c.inLen < needIn c) : lengthError c = some .inputTooShort :=
  if_pos h

theorem lengthError_of_outLen_lt {c : TextureCmd} (hin : needIn c ≤ c.inLen) (h : c.outLen < needOut c) :
    lengthError c = some .outputTooShort := by
  rw [lengthError, if_neg (by omega), if_pos h]

/-- A texture without pixels needs no byte of either buffer (44_gather R179). -/
theorem need_eq_zero {c : TextureCmd} (h : c.width = 0 ∨ c.height = 0) : needIn c = 0 ∧ needOut c = 0 := by
  rcases h with h | h <;> simp [needIn, needOut, gridWidth, gridHeight, ceilQuarter, h]

theorem buffersOverlap_of_needOut_eq_zero {c : TextureCmd} (h : needOut c = 0) : buffersOverlap c = false := by
  simp [buffersOverlap, h]

theorem blockGrid_eq_nil {c : TextureCmd} (hin : needIn c = 0) : blockGrid c = [] := by
  refine List.eq_nil_of_length_eq_zero ?_
  rw [needIn] at hin
  rw [length_blockGrid]
  omega

/-! The steps of a BUSY GSU (44_gather R175 to R177). -/

/-- Each byte of a pixel inside the image, by its channel (20_memory R46). -/
theorem read_pixel_of_bytes {m : Memory} {a : Nat} {q : Rgba}
    (h : ∀ k < 4, m.read (a + k) = (pixelBytes q).getD k 0) :
    m.read a = q.r ∧ m.read (a + 1) = q.g ∧ m.read (a + 2) = q.b ∧ m.read (a + 3) = q.a :=
  ⟨h 0 (by omega), h 1 (by omega), h 2 (by omega), h 3 (by omega)⟩

theorem step_of_pending_nil {s : State} {c : TextureCmd} (h : GsuTakes s) (hc : s.gsu.cmd = some c)
    (hp : s.gsu.pending = []) : step s = .next s.complete.redraw := by
  rw [step_gsu h, gsuMove_of_pending_nil hc hp, andThen_next]

/-! A host that keeps its duties (44_gather R181). -/

/-- The host takes an action exactly when it moves and the action is the next of its script. -/
theorem hostTakes_iff {s : State} {a : HostAction} {rest : List HostAction} :
    HostTakes s a rest ↔ HostMoves s ∧ s.queue = a :: rest := by
  constructor
  · rintro ⟨hq, hwait, hturn⟩
    exact ⟨⟨(hostReady_iff s).2 ⟨a, rest, hq, hwait⟩, hturn⟩, hq⟩
  · rintro ⟨hmoves, hq⟩
    exact hostTakes_of_hostMoves hmoves hq

/-- An action of a host that keeps its duties answers a next state. -/
theorem hostAct_answers {s : State} {a : HostAction} (h : HostDuty s a) : ∃ t, hostAct a s = .next t := by
  cases a with
  | decodeBlock bs => exact ⟨_, exec_decodeBlock h s⟩
  | decodeTexture c =>
    obtain ⟨hi, hd, ho⟩ := h
    exact ⟨_, exec_decodeTexture_next.2 ⟨hi, hd, ho, rfl⟩⟩
  | write addr bs => exact ⟨_, hostWrite_of_free h⟩
  | wait => exact ⟨_, rfl⟩
  | read base lo hi => exact ⟨_, rfl⟩
  | poll => exact ⟨_, rfl⟩
  | reset => exact ⟨_, rfl⟩

/-- The duties are about the GSU registers alone, which taking an action off the script leaves. -/
theorem HostDuty.popAction {s : State} {a : HostAction} (h : HostDuty s a) : HostDuty s.popAction a := by
  cases a <;> exact h

/-! The host's script along a run. -/

/-- No action changes the script; the step takes the action off it. -/
theorem hostAct_queue {s t : State} {a : HostAction} (h : hostAct a s = .next t) : t.queue = s.queue := by
  cases a with
  | decodeBlock bs =>
    have h : exec (.decodeBlock bs) s = .next t := h
    by_cases hl : bs.length = 16
    · rw [exec_decodeBlock hl] at h
      cases h
      rfl
    · rw [exec_decodeBlock_refused hl] at h
      cases h
  | decodeTexture c =>
    obtain ⟨-, -, -, rfl⟩ := exec_decodeTexture_next.1 h
    exact State.issue_queue s c
  | write addr bs =>
    have h : hostWrite addr bs s = .next t := h
    unfold hostWrite at h
    split at h
    · cases h
    · cases h
      rfl
  | wait | read | poll | reset =>
    cases h
    rfl

theorem gsuMove_queue {s t : State} (h : gsuMove s = .next t) : t.queue = s.queue := by
  rcases gsuMove_cases h with ⟨-, rfl⟩ | ⟨-, c, -, hsteps⟩
  · rfl
  · obtain ⟨-, -, -, -, hqueue, -⟩ := blockSteps_frame hsteps
    exact hqueue

/-- A step takes at most the head of the script off it. -/
theorem step_queue_length_le {s t : State} (h : step s = .next t) : t.queue.length ≤ s.queue.length := by
  rcases step_cases h with ⟨a, rest, u, -, hu, rfl⟩ | ⟨u, -, hu, rfl⟩ | ⟨-, -, rfl⟩
  · simp [hostAct_queue hu]
  · simp [gsuMove_queue hu]
  · rfl

/-- A run that answers a next state begins with a step that does. -/
theorem step_of_run_succ {k : Nat} {s t : State} (h : core.run (k + 1) s = .next t) :
    ∃ u, step s = .next u ∧ core.run k u = .next t := by
  cases hs : step s with
  | next u => exact ⟨u, rfl, (run_succ_of_next hs k).symm.trans h⟩
  | fault e =>
    have hs' : core.step s = .fault e := hs
    simp [Host.Core.run, hs'] at h
  | refused e =>
    have hs' : core.step s = .refused e := hs
    simp [Host.Core.run, hs'] at h

theorem run_queue_length_le {k : Nat} {s t : State} (h : core.run k s = .next t) :
    t.queue.length ≤ s.queue.length := by
  induction k generalizing s with
  | zero =>
    cases h
    exact le_rfl
  | succ k ih =>
    obtain ⟨u, hu, hrun⟩ := step_of_run_succ h
    exact (ih hrun).trans (step_queue_length_le hu)

/-- The invariant holds along a run. -/
theorem Inv.run {k : Nat} {s t : State} (h : Inv s) (ht : core.run k s = .next t) : Inv t := by
  induction k generalizing s with
  | zero =>
    cases ht
    exact h
  | succ k ih =>
    obtain ⟨u, hu, hrun⟩ := step_of_run_succ ht
    exact ih (h.step hu) hrun

/-! The end of a transaction that the host waits for. -/

/-- The GSU is IDLE and the host stands at the WAIT before `rest`. -/
def AtWait (rest : List HostAction) (s : State) : Prop := s.gsu.state = .idle ∧ s.queue = .wait :: rest

/-- An IDLE machine passes the WAIT in its next step, so no run comes back to it. -/
theorem run_succ_ne_atWait {k : Nat} {s t : State} {rest : List HostAction} (hs : AtWait rest s) (ht : AtWait rest t) :
    core.run (k + 1) s ≠ .next t := by
  obtain ⟨hi, hq⟩ := hs
  obtain ⟨-, hqt⟩ := ht
  intro hrun
  have hstep : step s = .next s.popAction.redraw := step_host ⟨hq, fun _ => hi, .inl hi⟩
  rw [run_succ_of_next hstep] at hrun
  have hle := run_queue_length_le hrun
  simp [hq, hqt] at hle

/-- A run comes to the end of the transaction once: two runs from one state that are there are at one state. -/
theorem eq_of_run_atWait {k k' : Nat} {s t t' : State} {rest : List HostAction} (hrun : core.run k s = .next t)
    (hrun' : core.run k' s = .next t') (h : AtWait rest t) (h' : AtWait rest t') : t = t' := by
  induction k generalizing k' s with
  | zero =>
    cases hrun
    cases k' with
    | zero => exact Host.Outcome.next.inj hrun'
    | succ k' => exact absurd hrun' (run_succ_ne_atWait h h')
  | succ k ih =>
    cases k' with
    | zero =>
      cases hrun'
      exact absurd hrun (run_succ_ne_atWait h' h)
    | succ k' =>
      obtain ⟨u, hu, hrun⟩ := step_of_run_succ hrun
      obtain ⟨u', hu', hrun'⟩ := step_of_run_succ hrun'
      obtain rfl := Host.Outcome.next.inj (hu.symm.trans hu')
      exact ih hrun hrun'

/-- Every byte of memory at the end of a transaction. -/
theorem Completed.read {c : TextureCmd} {before : Memory} {s t : State} (h : Completed c before s t) (a : Nat) :
    t.mem.read a = if outUsed c a then imageByte c before (a - c.outBase) else s.mem.read a := by
  split
  next hout =>
    obtain ⟨hlo, hhi⟩ := (outUsed_iff c a).1 hout
    have himage := h.image (a - c.outBase) (by omega)
    rwa [Nat.add_sub_cancel' hlo] at himage
  next hout => exact h.outside a (Bool.not_eq_true _ ▸ hout)

/-- A byte of memory after a transaction issued on memory `m`: that of the image in OUT[0 .. NEED_OUT), unless a length
was too short (44_gather R173, R175). -/
def finalByte (c : TextureCmd) (m : Memory) (a : Nat) : Byte :=
  if lengthError c = none ∧ outUsed c a = true then imageByte c m (a - c.outBase) else m.read a

/-- The step that issues a DECODE_TEXTURE is refused or the issue step. -/
theorem eq_issue_of_step {s t : State} {c : TextureCmd} {rest : List HostAction} (hi : s.gsu.state = .idle)
    (hq : s.queue = .decodeTexture c :: rest) (ht : step s = .next t) :
    c.dimsFit = true ∧ buffersOverlap c = false ∧ t = (s.popAction.issue c).redraw := by
  rw [step_host ⟨hq, nofun, .inl hi⟩, andThen_eq_next] at ht
  obtain ⟨u, hu, ht⟩ := ht
  obtain ⟨-, hd, ho, rfl⟩ := exec_decodeTexture_next.1 hu
  exact ⟨hd, ho, (Host.Outcome.next.inj ht).symm⟩

/-- A run that comes to the end of a transaction leaves a status and a memory that are functions of the command and of
the memory it was issued on, whatever the schedule (44_gather R176). -/
theorem run_atWait_result {s t : State} {c : TextureCmd} {rest : List HostAction} {k : Nat} (h : Inv s)
    (hi : s.gsu.state = .idle) (hq : s.queue = .decodeTexture c :: .wait :: rest) (hrun : core.run k s = .next t)
    (ht : AtWait rest t) : t.gsu.status = (lengthError c).getD .ok ∧ ∀ a, t.mem.read a = finalByte c s.mem a := by
  cases k with
  | zero =>
    cases hrun
    have := congrArg List.length (hq.symm.trans ht.2)
    simp at this
  | succ k =>
    obtain ⟨u, hu, -⟩ := step_of_run_succ hrun
    obtain ⟨hd, ho, rfl⟩ := eq_issue_of_step hi hq hu
    rcases he : lengthError c with _ | e
    · obtain ⟨k₀, t₀, -, hrun₀, hend⟩ := texture_completes h hi ⟨hd, ho, he⟩ hq
      obtain rfl := eq_of_run_atWait hrun hrun₀ ht ⟨hend.state, by simpa [hq] using hend.queue⟩
      exact ⟨hend.status, fun a => by simpa [finalByte, he] using hend.read a⟩
    · have hgsu := issue_gsu_of_lengthError he s.popAction
      obtain rfl := eq_of_run_atWait hrun (run_succ_of_next hu 0) ht ⟨by simp [hgsu], by simp [hq]⟩
      exact ⟨by simp [hgsu], fun a => by simp [finalByte, he]⟩

end Sys2Proof.Machine

namespace Sys2Proof.Proofs.GatherScatterFamily
open Sys2Proof.Machine Sys2Proof.Claims

/-- Settles O48: the run of a transaction ends with its image, which is every byte of OUT[0 .. NEED_OUT). -/
theorem textureEndsOkWithItsImage : Obligations.TextureEndsOkWithItsImage := by
  intro s c rest h hi hl hq
  obtain ⟨k, t, hk, hrun, hend⟩ := texture_completes h hi hl hq
  exact ⟨k, t, hk, hrun, hend.state, hend.status, by simpa [hq] using hend.queue, hend.replies, hend.read⟩

/-- Settles O49: both runs end with the memory and the status that the command and the memory at issue determine. -/
theorem everyScheduleGivesTheSameMemory : Obligations.EveryScheduleGivesTheSameMemory := by
  intro s s' t t' c rest k k' h hi hq ⟨hgsu, hmem, hqueue⟩ h' hrun hrun' ht ht' hqt hqt'
  obtain ⟨hstatus, hread⟩ := run_atWait_result h hi hq hrun ⟨ht, hqt⟩
  obtain ⟨hstatus', hread'⟩ := run_atWait_result h' (hgsu ▸ hi) (hqueue.trans hq) hrun' ⟨ht', hqt'⟩
  refine ⟨Memory.ext_of_wf (h.run hrun).memory (h'.run hrun').memory fun a => ?_, hstatus.trans hstatus'.symm⟩
  rw [hread, hread', hmem]

/-- Settles O25: the BDU on the block the bytes are, from whatever scratch. -/
theorem decodeBlockResult : Obligations.DecodeBlockResult := by
  refine ⟨fun bs s hlen => ?_, fun bs s hlen => exec_decodeBlock_refused hlen s⟩
  refine ⟨_, exec_decodeBlock hlen s, ?_, blockRun_pix _ _, rfl, fun _ => rfl, rfl, rfl, rfl, fun hzero p => ?_⟩
  · simp [blockRun_pix]
  · rw [State.reply_scratch, State.withBdu_scratch, blockRun_pix, decodeBlockPixels_of_byte_zero hzero]
    simp [PixelIs, Rgba.zero]

/-- Settles O26: nothing is refused and no length is short, so the issue step sets the whole grid pending. -/
theorem decodeTextureIssues : Obligations.DecodeTextureIssues := by
  intro c s hi hw hh ho hin hout
  have hd := (dimsFit_iff c).2 ⟨hw, hh⟩
  have hgsu := issue_gsu_of_legal ⟨hd, ho, (lengthError_eq_none c).2 ⟨hin, hout⟩⟩ s
  refine ⟨_, exec_decodeTexture_next.2 ⟨hi, hd, ho, rfl⟩, ?_⟩
  simp only [hgsu, State.issue_scratch, State.issue_mem, State.issue_queue, State.issue_replies, State.issue_turn,
    State.issue_draws, true_and, and_true, implies_true]
  exact ⟨fun col row => mem_blockGrid c (col, row), nodup_blockGrid c, length_blockGrid c⟩

/-- Settles O27: the issue step reports the first length check that fails. -/
theorem shortLengthsAreReportedAtIssue : Obligations.ShortLengthsAreReportedAtIssue := by
  intro c s hi hw hh ho e code hshort
  have herror : lengthError c = some e ∧ e.code = some code := by
    rcases hshort with ⟨hin, rfl, rfl⟩ | ⟨hin, hout, rfl, rfl⟩
    · exact ⟨lengthError_of_inLen_lt hin, rfl⟩
    · exact ⟨lengthError_of_outLen_lt hin hout, rfl⟩
  obtain ⟨he, hcode⟩ := herror
  refine ⟨_, exec_decodeTexture_next.2 ⟨hi, (dimsFit_iff c).2 ⟨hw, hh⟩, ho, rfl⟩, ?_⟩
  simp [issue_gsu_of_lengthError he, hcode]

/-- Settles O28: the refusals are looked for before anything else, BUSY first, then u32, then the overlap. -/
theorem decodeTextureRefusals : Obligations.DecodeTextureRefusals := by
  intro c s
  refine ⟨fun hb => if_pos hb, fun hi hwide => ?_, fun hi hw hh ⟨a, hin, hout⟩ => ?_⟩
  · have hd : c.dimsFit = false := by
      rw [← Bool.not_eq_true, dimsFit_iff]
      omega
    rw [exec, execDecodeTexture, if_neg (by simp [hi]), if_pos hd]
  · have hd := (dimsFit_iff c).2 ⟨hw, hh⟩
    have ho : buffersOverlap c = true :=
      (buffersOverlap_iff c).2 ⟨a, (inUsed_iff c a).2 hin, (outUsed_iff c a).2 hout⟩
    rw [exec, execDecodeTexture, if_neg (by simp [hi]), if_neg (by simp [hd]), if_pos ho]

/-- Settles O29: what needs no byte is legal for any buffers, its grid is empty, and the next GSU step completes. -/
theorem zeroSizeTextureCompletes : Obligations.ZeroSizeTextureCompletes := by
  intro c s hzero hd hi
  obtain ⟨hin, hout⟩ := need_eq_zero hzero
  have ho := buffersOverlap_of_needOut_eq_zero hout
  have hl : CommandLegal c := ⟨hd, ho, (lengthError_eq_none c).2 (by omega)⟩
  have hgsu := issue_gsu_of_legal hl s
  rw [blockGrid_eq_nil hin] at hgsu
  refine ⟨hin, hout, s.issue c, exec_decodeTexture_next.2 ⟨hi, hd, ho, rfl⟩, by simp [hgsu], by simp [hgsu],
    State.issue_mem s c, fun hmoves => ?_⟩
  refine ⟨_, step_of_pending_nil (c := c) hmoves (by simp [hgsu]) (by simp [hgsu]), rfl, rfl, ?_, fun a => ?_⟩
  · simp
  · simp

/-- Settles O30: the bytes loaded, decoded and scattered, with the pixels read off the BDU whatever its scratch was. -/
theorem blockStepScattersTheClippedBlock : Obligations.BlockStepScattersTheClippedBlock := by
  intro c col row s hl hc hr hm
  obtain ⟨m, hstep, -, hat, helse⟩ := blockStep_spec hl hc hr hm
  rw [State.withBdu_scratch, blockRun_pix] at hat
  exact ⟨_, hstep, blockRun_pix _ _, fun p hx hy => read_pixel_of_bytes (hat p ⟨hx, hy⟩),
    fun x hx => helse x fun p ⟨hpx, hpy⟩ => hx p hpx hpy, rfl, rfl, rfl, rfl⟩

/-- Settles O36: the host's action answers by its duty, and the GSU always has a move. -/
theorem stepsAreSafeWhileTheHostKeepsItsDuties : Obligations.StepsAreSafeWhileTheHostKeepsItsDuties := by
  intro s h hduty
  rcases move_cases s with ⟨a, rest, hhost⟩ | hgsu | ⟨hi, hr⟩
  · obtain ⟨hmoves, hq⟩ := hostTakes_iff.1 hhost
    obtain ⟨t, ht⟩ := hostAct_answers (hduty a rest hmoves hq).popAction
    exact ⟨t.redraw, by rw [step_host hhost, ht, andThen_next]⟩
  · obtain ⟨t, ht⟩ := gsuMove_answers h hgsu.1
    exact ⟨t.redraw, by rw [step_gsu hgsu, ht, andThen_next]⟩
  · exact ⟨s, step_still hi hr⟩

/-- Settles O37: each lane that fires takes one block and writes in the output. -/
theorem gsuStepTakesPendingBlocks : Obligations.GsuStepTakesPendingBlocks := by
  intro s h hmoves hp
  obtain ⟨c, hc, -⟩ := h.busy hmoves.1
  obtain ⟨t, j, ht, hone, hlanes, hprog⟩ := gsuMove_progress h ⟨hmoves.1, hc⟩ hp
  obtain ⟨-, hcmd, hstatus, -, hqueue, hreplies, -⟩ :=
    blockSteps_frame ((gsuMove_of_pending_ne_nil hc hp).symm.trans ht)
  have htaken := hprog.taken
  obtain ⟨hbusy, -⟩ := hprog.lane.running
  refine ⟨t.redraw, by rw [step_gsu hmoves, ht, andThen_next], hbusy, hcmd, hstatus, hprog.sublist, ?_, ?_, hqueue,
    hreplies, fun c' hc' => ?_⟩
  · rw [State.redraw_gsu]
    omega
  · rw [State.redraw_gsu]
    omega
  · obtain rfl := Option.some.inj (hc.symm.trans hc')
    exact hprog.lane.outside

/-- Settles O38: with nothing pending the GSU's move is completion. -/
theorem gsuStepCompletes : Obligations.GsuStepCompletes := fun _ _ hmoves hc hp =>
  ⟨_, step_of_pending_nil hmoves hc hp, rfl, rfl, rfl, rfl, rfl, fun _ => rfl, rfl, rfl, rfl⟩

/-- Settles O39: of what a step can do, only an issue leaves IDLE, and only completion and a reset leave BUSY. -/
theorem gsuStateTransitions : Obligations.GsuStateTransitions := by
  intro s t ht
  rcases step_cases ht with ⟨a, rest, u, ⟨hq, -, -⟩, hu, rfl⟩ | ⟨u, ⟨hb, -⟩, hu, rfl⟩ | ⟨hi, -, rfl⟩
  · rcases hostAct_gsu hu with hg | ⟨rfl, hg⟩ | ⟨c, rfl, hidle, -⟩
    · simp only [State.redraw_gsu, hg, State.popAction_gsu]
      exact ⟨fun hi hb => by simp [hi] at hb, fun hb hi => by simp [hb] at hi⟩
    · exact ⟨fun _ hb => by simp [hg, Gsu.reset] at hb, fun _ _ => .inr ⟨rest, hq⟩⟩
    · exact ⟨fun _ _ => ⟨c, rest, hq⟩, fun hb _ => by simp [hb] at hidle⟩
  · refine ⟨fun hi _ => by simp [hb] at hi, fun _ hi => ?_⟩
    rcases gsuMove_cases hu with ⟨hp, rfl⟩ | ⟨-, c, -, hsteps⟩
    · exact .inl ⟨hp, rfl⟩
    · obtain ⟨hstate, -⟩ := blockSteps_frame hsteps
      simp [hstate, hb] at hi
  · exact ⟨fun _ hb => by simp [hi] at hb, fun hb _ => by simp [hi] at hb⟩

end Sys2Proof.Proofs.GatherScatterFamily
end

section
/-! PROOFS (family 60_exceptions.md). How the host learns that a transaction has ended: a poll, a WAIT, and a machine with
nothing to do. -/

namespace Sys2Proof.Machine

theorem hostReady_of_queue_nil {s : State} (hq : s.queue = []) : s.hostReady = false := by
  simp [State.hostReady, hq]

/-- A move of the GSU gives the host nothing (60_exceptions R195). -/
theorem gsuMove_replies {s t : State} (h : gsuMove s = .next t) : t.replies = s.replies := by
  rcases gsuMove_cases h with ⟨-, rfl⟩ | ⟨-, c, -, hsteps⟩
  · rfl
  · obtain ⟨-, -, -, -, -, hreplies, -⟩ := blockSteps_frame hsteps
    exact hreplies

/-- The step of a host that polls (60_exceptions R195). -/
theorem step_poll {s : State} {rest : List HostAction} (h : HostTakes s .poll rest) :
    step s = .next (s.popAction.reply (.status s.gsu.state s.gsu.status)).redraw :=
  step_host h

/-- The step that passes a WAIT (30_encoding R78). -/
theorem step_wait_of_idle {s : State} {rest : List HostAction} (hi : s.gsu.state = .idle)
    (hq : s.queue = .wait :: rest) : step s = .next s.popAction.redraw :=
  step_host ⟨hq, fun _ => hi, .inl hi⟩

/-- While a WAIT blocks the host, only the GSU moves (10_state R27). -/
theorem step_wait_of_busy {s : State} {rest : List HostAction} (hb : s.gsu.state = .busy)
    (hq : s.queue = .wait :: rest) : step s = andThen (gsuMove s) fun t => .next t.redraw :=
  step_gsu (gsuTakes_of_wait hb hq)

end Sys2Proof.Machine

namespace Sys2Proof.Proofs.ExceptionsFamily
open Sys2Proof.Machine

/-- Settles O47: a poll and a WAIT while IDLE are moves of the host alone, a WAIT while BUSY leaves the move to the
GSU. -/
theorem hostSeesTheEndByPolling : Obligations.HostSeesTheEndByPolling := by
  refine ⟨fun s rest hmoves hq => ?poll, fun s rest hi hq => ?pass, fun s t rest hb hq ht => ?block⟩
  case poll => exact ⟨_, step_poll (hostTakes_of_hostMoves hmoves hq), rfl, rfl, rfl, rfl, congrArg List.tail hq⟩
  case pass => exact ⟨_, step_wait_of_idle hi hq, rfl, rfl, rfl, rfl, congrArg List.tail hq⟩
  case block =>
    rw [step_wait_of_busy hb hq, andThen_eq_next] at ht
    obtain ⟨u, hu, hredraw⟩ := ht
    cases hredraw
    simp [gsuMove_queue hu, gsuMove_replies hu, hq]

/-- Settles O43: an IDLE GSU has no move, nor has a host with an empty script. -/
theorem idleMachineKeepsItsState : Obligations.IdleMachineKeepsItsState := fun _ hi hq =>
  step_still hi (hostReady_of_queue_nil hq)

end Sys2Proof.Proofs.ExceptionsFamily
end

section
/-! PROOFS (family 70_reset_and_hazards.md). What the host may do to memory while a transaction runs: a write beside its
used ranges, and the reset that abandons it. -/

namespace Sys2Proof.Machine
open Memory

/-! The host's writes (70_reset R215). -/

/-- The step of a host write that touches no used range of a running transaction. -/
theorem step_write_of_free {s : State} {addr : Nat} {bs : List Byte} {rest : List HostAction}
    (h : HostTakes s (.write addr bs) rest) (hfree : ∀ k < bs.length, s.claimed (addr + k) = false) :
    step s = .next (s.popAction.withMem (s.mem.writeBytes addr bs)).redraw := by
  have hact : hostAct (.write addr bs) s.popAction = .next (s.popAction.withMem (s.mem.writeBytes addr bs)) :=
    hostWrite_of_free hfree
  rw [step_host h, hact, andThen_next]

/-- The step of a host write that touches a used range of a running transaction. -/
theorem step_write_of_claimed {s : State} {addr k : Nat} {bs : List Byte} {rest : List HostAction}
    (h : HostTakes s (.write addr bs) rest) (hk : k < bs.length) (hclaimed : s.claimed (addr + k) = true) :
    step s = .refused .hostWriteWhileBusy := by
  have hact : hostAct (.write addr bs) s.popAction = .refused .hostWriteWhileBusy := hostWrite_of_claimed hk hclaimed
  rw [step_host h, hact, andThen_refused]

/-! The reset of the hardware (70_reset R210). -/

/-- Memory after a reset while BUSY: each byte of OUT[0 .. NEED_OUT) is the one the abandoned transaction leaves there. -/
theorem read_memAfterReset_of_busy {s : State} {c : TextureCmd} (hm : Memory.wf s.mem) (hrun : Running c s) (a : Nat) :
    s.memAfterReset.read a =
      if outUsed c a then abandonedByte s.draws c s.gsu.before (a - c.outBase) else s.mem.read a := by
  rw [memAfterReset_of_busy hrun.1 hrun.2, read_writeBytes hm, List.length_map, List.length_range]
  simp only [outUsed_iff]
  split
  next hrange =>
    have hoff : a - c.outBase < needOut c := by omega
    rw [List.getD_eq_getElem _ _ (by simpa using hoff), List.getElem_map, List.getElem_range]
  next => rfl

/-- A byte that an abandoned transaction leaves is the old one or the one it would have written. -/
theorem abandonedByte_old_or_final (draw : Nat) (c : TextureCmd) (before : Memory) (off : Nat) :
    abandonedByte draw c before off = before.read (c.outBase + off) ∨
      abandonedByte draw c before off = imageByte c before off := by
  unfold abandonedByte
  split
  · exact .inr rfl
  · exact .inl rfl

end Sys2Proof.Machine

namespace Sys2Proof.Proofs.ResetFamily
open Sys2Proof.Machine

/-- Settles O45: the write is refused exactly when it covers a claimed byte, and while BUSY those are the used ranges. -/
theorem hostWritesOutsideTheUsedRanges : Obligations.HostWritesOutsideTheUsedRanges := by
  intro s addr bs rest hm hmoves hq
  have hhost := hostTakes_of_hostMoves hmoves hq
  refine ⟨fun hfree => ?free, fun c a hb hc hused hlo hhi => ?refused⟩
  case free =>
    exact ⟨_, step_write_of_free hhost hfree, Memory.read_writeBytes hm addr bs, rfl, rfl, rfl, congrArg List.tail hq⟩
  case refused =>
    refine step_write_of_claimed (k := a - addr) hhost (by omega) ?_
    rw [Nat.add_sub_cancel' hlo, claimed_of_busy hb hc, Bool.or_eq_true]
    exact hused

/-- Settles O46: memory after the reset is read byte by byte, and a byte left in the output is old or final. -/
theorem resetAbandonsTheTransaction : Obligations.ResetAbandonsTheTransaction := by
  intro s rest h hmoves hq
  refine ⟨_, step_host (hostTakes_of_hostMoves hmoves hq), rfl, congrArg List.tail hq, rfl, memAfterReset_of_idle,
    fun c hb hc => ?_⟩
  have hread := read_memAfterReset_of_busy h.popAction.memory (c := c) ⟨hb, hc⟩
  refine ⟨fun a hout => (hread a).trans (if_neg (by simp [hout])), fun off ho => ?_⟩
  have hbyte := (hread (c.outBase + off)).trans (if_pos ((outUsed_iff c _).2 (by omega)))
  rw [Nat.add_sub_cancel_left] at hbyte
  exact (abandonedByte_old_or_final _ c _ off).imp hbyte.trans hbyte.trans

end Sys2Proof.Proofs.ResetFamily
end
